-- ==== Sys2Proof/Word.lean ====
section
/-! DEFINITION. The value of a memory cell: one signed 64-bit integer (`00_scope.md` rules R6, R8;
`20_memory.md` rule R51). -/

namespace Sys2Proof

/-- One value: XLEN = 64 bits, read as signed two's complement through `BitVec.toInt` (R6, R8). -/
abbrev Word := BitVec 64

/-- `INT_MIN`, the least value (R6). -/
def intMin : Int := -9223372036854775808

/-- `INT_MAX`, the greatest value (R6). -/
def intMax : Int := 9223372036854775807

end Sys2Proof
end

