-- ==== Sys2Proof/Syntax.lean ====
section
/-! DEFINITION. The ten instructions as syntax: a tagged variant over the ten forms, each with its resolved
Parameters (`30_encoding.md` rules R82 to R86; `40_fetch_decode_resolve.md` rule R116). -/

namespace Sys2Proof

/-- An addressing mode (R83). -/
inductive Mode where
  /-- mode digit 0 -/
  | position
  /-- mode digit 1 -/
  | immediate
  /-- mode digit 2 -/
  | relative
  deriving DecidableEq, Repr

/-- A Parameter: "a resolved operand, one of three variants" (R10, R84). -/
inductive Param where
  /-- the operand word is an absolute cell address -/
  | position (address : Word)
  /-- the operand word is the value itself -/
  | immediate (value : Word)
  /-- the operand word is a signed offset added to `rb` when the parameter is resolved -/
  | relative (offset : Word)
  deriving DecidableEq, Repr

/-- The raw operand word a Parameter was built from (R84). -/
def Param.raw : Param → Word
  | .position r => r
  | .immediate r => r
  | .relative r => r

/-- The addressing mode of a Parameter. -/
def Param.mode : Param → Mode
  | .position _ => .position
  | .immediate _ => .immediate
  | .relative _ => .relative

/-- One decoded instruction (R86): one constructor per row of `opcode_table.json`, operands in the table's order. -/
inductive Instr where
  /-- ADD, opcode 1, format F3 -/
  | add (a b out : Param)
  /-- MUL, opcode 2, format F3 -/
  | mul (a b out : Param)
  /-- IN, opcode 3, format F1W -/
  | input (out : Param)
  /-- OUT, opcode 4, format F1R -/
  | output (a : Param)
  /-- JNZ, opcode 5, format F2R -/
  | jnz (a b : Param)
  /-- JZ, opcode 6, format F2R -/
  | jz (a b : Param)
  /-- LT, opcode 7, format F3 -/
  | lt (a b out : Param)
  /-- EQ, opcode 8, format F3 -/
  | eq (a b out : Param)
  /-- ARB, opcode 9, format F1R -/
  | arb (a : Param)
  /-- HLT, opcode 99, format F0 -/
  | hlt
  deriving DecidableEq, Repr

/-- The Parameters of an instruction, in the order of their operand words (R82). -/
def Instr.params : Instr → List Param
  | .add a b out => [a, b, out]
  | .mul a b out => [a, b, out]
  | .input out => [out]
  | .output a => [a]
  | .jnz a b => [a, b]
  | .jz a b => [a, b]
  | .lt a b out => [a, b, out]
  | .eq a b out => [a, b, out]
  | .arb a => [a]
  | .hlt => []

/-- The Parameter an instruction writes, if it has one (R82, R85). -/
def Instr.writeParam? : Instr → Option Param
  | .add _ _ out => some out
  | .mul _ _ out => some out
  | .input out => some out
  | .output _ => none
  | .jnz _ _ => none
  | .jz _ _ => none
  | .lt _ _ out => some out
  | .eq _ _ out => some out
  | .arb _ => none
  | .hlt => none

/-- The length of an instruction in cells: 1 + the number of its operand words (R82, R91). -/
def Instr.length (i : Instr) : Nat := 1 + i.params.length

end Sys2Proof
end

