-- ==== Sys2Proof/WellFormed.lean ====
section
/-! DEFINITION. Which instructions are well formed. Every operand word is a `Word`, so every term of `Instr` has an
encoding and every range check holds by its type; the one static rule left is that of the write target
(`30_encoding.md` rule R85). -/

namespace Sys2Proof

/-- A legal write target: Position or Relative. Immediate is "illegal as a write target" (R85). -/
def Param.legalTarget : Param → Bool
  | .position _ => true
  | .immediate _ => false
  | .relative _ => true

/-- An instruction is well formed when its write parameter, if it has one, is a legal write target (R85). An
ill-formed instruction decodes and runs all the same, and raises a fault (R85, R119): no statement about decoding or
about the step leaves it out. -/
def Instr.wellFormed (i : Instr) : Bool :=
  match i.writeParam? with
  | some out => out.legalTarget
  | none => true

end Sys2Proof
end

