-- ==== Sys2Proof/Decode.lean ====
section
/-! DEFINITION. The decoder (total on any cells, rejecting by name) and the encoder (`30_encoding.md` rules R80 to R92
and R97; `40_fetch_decode_resolve.md` rules R112 to R116). -/

namespace Sys2Proof

/-- `digit(w, p) = (w div 10^p) mod 10` (R7, R81). -/
def digit (w p : Nat) : Nat := w / 10 ^ p % 10

/-- Why a list of cells is no instruction. -/
inductive DecodeReject where
  /-- the instruction word is negative (R88) -/
  | negativeWord
  /-- `w mod 100` is none of 1 to 9 and 99 (R87) -/
  | illegalOpcode (op : Nat)
  /-- the mode digit of parameter `k`, which the opcode has, is 3 to 9 (R89) -/
  | illegalMode (k d : Nat)
  /-- there is no cell for the instruction word -/
  | noInstructionWord
  /-- there are fewer cells than the opcode has operand words (R80, R115) -/
  | missingOperandWord
  deriving DecidableEq, Repr

/-- The opcodes of format F3 (R82). -/
inductive OpF3 where
  | add | mul | lt | eq
  deriving DecidableEq, Repr

/-- The opcodes of format F2R (R82). -/
inductive OpF2 where
  | jnz | jz
  deriving DecidableEq, Repr

/-- The opcodes of formats F1R and F1W (R82). -/
inductive OpF1 where
  | input | output | arb
  deriving DecidableEq, Repr

/-- An opcode, by the number of its operand words (R82, R86). -/
inductive Opcode where
  | f3 (op : OpF3)
  | f2 (op : OpF2)
  | f1 (op : OpF1)
  | f0
  deriving DecidableEq, Repr

/-- What the instruction word alone says: the opcode and the modes of the parameters it has (R81, R114). -/
inductive Head where
  | f3 (op : OpF3) (m1 m2 m3 : Mode)
  | f2 (op : OpF2) (m1 m2 : Mode)
  | f1 (op : OpF1) (m1 : Mode)
  | f0
  deriving DecidableEq, Repr

/-- The opcode map (R86). -/
def opcodeOf (n : Nat) : Option Opcode :=
  match n with
  | 1 => some (.f3 .add)
  | 2 => some (.f3 .mul)
  | 3 => some (.f1 .input)
  | 4 => some (.f1 .output)
  | 5 => some (.f2 .jnz)
  | 6 => some (.f2 .jz)
  | 7 => some (.f3 .lt)
  | 8 => some (.f3 .eq)
  | 9 => some (.f1 .arb)
  | 99 => some .f0
  | _ => none

/-- The number of operand words, `nparams(op)` (R113). -/
def Opcode.nparams : Opcode → Nat
  | .f3 _ => 3
  | .f2 _ => 2
  | .f1 _ => 1
  | .f0 => 0

/-- The mode a mode digit selects (R83); 3 to 9 select none (R89). -/
def modeOf (d : Nat) : Option Mode :=
  match d with
  | 0 => some .position
  | 1 => some .immediate
  | 2 => some .relative
  | _ => none

/-- The mode of parameter `k` (1-indexed): digit `k + 1` of the word (R81, R114). -/
def decodeMode (w k : Nat) : Except DecodeReject Mode :=
  match modeOf (digit w (k + 1)) with
  | some m => .ok m
  | none => .error (.illegalMode k (digit w (k + 1)))

/-- Phase 3: the mode digits of the parameters the opcode has, `k` ascending, and of no other (R114, R90). -/
def decodeModes (w : Nat) : Opcode → Except DecodeReject Head
  | .f3 op => do
    let m1 ← decodeMode w 1
    let m2 ← decodeMode w 2
    let m3 ← decodeMode w 3
    pure (.f3 op m1 m2 m3)
  | .f2 op => do
    let m1 ← decodeMode w 1
    let m2 ← decodeMode w 2
    pure (.f2 op m1 m2)
  | .f1 op => do
    let m1 ← decodeMode w 1
    pure (.f1 op m1)
  | .f0 => pure .f0

/-- Phases 2 and 3: everything the decoder checks before it fetches an operand word (R112, R114). -/
def decodeHead (w : Word) : Except DecodeReject Head :=
  if w.toInt < 0 then .error .negativeWord
  else
    match opcodeOf (w.toNat % 100) with
    | some op => decodeModes w.toNat op
    | none => .error (.illegalOpcode (w.toNat % 100))

/-- The opcode of a head. -/
def Head.opcode : Head → Opcode
  | .f3 op _ _ _ => .f3 op
  | .f2 op _ _ => .f2 op
  | .f1 op _ => .f1 op
  | .f0 => .f0

/-- Phase 5: a Parameter from its mode and its operand word (R84, R116). -/
def Mode.param : Mode → Word → Param
  | .position, r => .position r
  | .immediate, r => .immediate r
  | .relative, r => .relative r

/-- The instruction of an F3 opcode. -/
def OpF3.instr : OpF3 → Param → Param → Param → Instr
  | .add => .add
  | .mul => .mul
  | .lt => .lt
  | .eq => .eq

/-- The instruction of an F2R opcode. -/
def OpF2.instr : OpF2 → Param → Param → Instr
  | .jnz => .jnz
  | .jz => .jz

/-- The instruction of an F1R or F1W opcode. -/
def OpF1.instr : OpF1 → Param → Instr
  | .input => .input
  | .output => .output
  | .arb => .arb

/-- The operand words taken from the cells after the instruction word (R80, R84); the cells left over are returned. -/
def takeOperands : Head → List Word → Except DecodeReject (Instr × List Word)
  | .f3 op m1 m2 m3, r1 :: r2 :: r3 :: rest => .ok (op.instr (m1.param r1) (m2.param r2) (m3.param r3), rest)
  | .f2 op m1 m2, r1 :: r2 :: rest => .ok (op.instr (m1.param r1) (m2.param r2), rest)
  | .f1 op m1, r1 :: rest => .ok (op.instr (m1.param r1), rest)
  | .f0, rest => .ok (.hlt, rest)
  | _, _ => .error .missingOperandWord

/-- Decode the instruction that starts a list of cells, and return the cells after it (R80, R91). -/
def decode : List Word → Except DecodeReject (Instr × List Word)
  | [] => .error .noInstructionWord
  | w :: cells =>
    match decodeHead w with
    | .ok h => takeOperands h cells
    | .error e => .error e

/-- Four cells, the longest instruction (R82), from a number whose bit 0 is the least significant bit of the first
cell, 64 bits a cell, the bits from `nbits` up taken as zero (log 28). -/
def tableCells (nbits w : Nat) : List Word :=
  let v := w % 2 ^ nbits
  [BitVec.ofNat 64 v, BitVec.ofNat 64 (v / 2 ^ 64), BitVec.ofNat 64 (v / 2 ^ 128), BitVec.ofNat 64 (v / 2 ^ 192)]

/-- The instruction the decoder reads from `tableCells`. -/
def decodeTableWord (nbits w : Nat) : Option Instr :=
  match decode (tableCells nbits w) with
  | .ok (i, _) => some i
  | .error _ => none

/-! The encoder, from the same tables. -/

/-- The mode digit of a mode (R83). -/
def Mode.digit : Mode → Nat
  | .position => 0
  | .immediate => 1
  | .relative => 2

/-- The opcode value of an instruction (R86). -/
def Instr.opcode : Instr → Nat
  | .add _ _ _ => 1
  | .mul _ _ _ => 2
  | .input _ => 3
  | .output _ => 4
  | .jnz _ _ => 5
  | .jz _ _ => 6
  | .lt _ _ _ => 7
  | .eq _ _ _ => 8
  | .arb _ => 9
  | .hlt => 99

/-- The mode digits of parameters `k`, `k+1`, ... at their decimal places: parameter `k` at place `k + 1` (R81, R97). -/
def modeDigits : Nat → List Param → Nat
  | _, [] => 0
  | k, p :: ps => p.mode.digit * 10 ^ (k + 1) + modeDigits (k + 1) ps

/-- The canonical instruction word, `opcode + 100*m1 + 1000*m2 + 10000*m3` (R97). -/
def Instr.word (i : Instr) : Nat := i.opcode + modeDigits 1 i.params

/-- The canonical cells of an instruction: its instruction word, then its raw operands in order (R97). -/
def encode (i : Instr) : List Word := BitVec.ofNat 64 i.word :: i.params.map Param.raw

end Sys2Proof
end

