-- ==== Sys2Proof/Machine/State.lean ====
section
/-! DEFINITION. The state of one instance: exactly the nine items of `10_state.md` rule R33, and the state after
power-on. -/

namespace Sys2Proof.Machine

/-- One memory cell that holds something else than 0: its address and its value (R21, R51; log 1). -/
abbrev Cell := Nat × Word

/-- The contents of `M` (R21): the cells that do not hold 0, addresses strictly rising. An address that is not listed
holds 0 ("zero-filled beyond the loaded program", R56); which addresses exist is `State.cap`'s matter (R52; log 2). -/
abbrev Memory := List Cell

/-- The four faults of R230. The spec gives the whole effect of each (fault entry, R236), so an instruction that raises
one goes on to a NEXT state with STATUS = FAULTED: `exec` and `step` never answer `Host.Outcome.fault` (log 11). -/
inductive Fault where
  /-- code 1. Raised by the decoder: a negative instruction word, an opcode not in 1 to 9 and 99, or a mode digit 3 to 9
  of a parameter in use (R87, R88, R89). Safe: the hardware stops as well. -/
  | decodeError
  /-- code 2. Raised by ADD, MUL, IN, LT, EQ when their write parameter is Immediate (R119). Safe: the hardware stops as
  well. -/
  | writeToImmediate
  /-- code 3. Raised by IN when INQ is empty (R150). Safe: the hardware stops as well. -/
  | inputUnderflow
  /-- code 4. Raised by every fetch, read and write of an address outside [0, CAP), and by a taken jump to a negative
  target (R53, R58, R162). Safe: the hardware stops as well. -/
  | addressOutOfBounds
  deriving DecidableEq, Repr

/-- Why a step has no meaning. -/
inductive Refusal where
  /-- An instruction without a meaning, by its mnemonic. Raised by nobody: all ten instructions have their meaning.
  Safe: it would only stop. -/
  | notModelled (mnemonic : String)
  deriving DecidableEq, Repr

/-- `STATUS`, the run status (R28). -/
inductive Status where
  /-- code 0: no instruction in progress; after LOAD, and after a STEP whose instruction produced no event -/
  | ready
  /-- code 1: a STEP or RUN is in progress; never seen between commands -/
  | running
  /-- code 2: the last command returned `Output(v)` -/
  | suspended
  /-- code 3: a Halt instruction has executed; left only by LOAD -/
  | halted
  /-- code 4: a fault has been raised; left only by LOAD -/
  | faulted
  deriving DecidableEq, Repr

/-- The complete state of one instance (R33): nine items. -/
structure State where
  /-- `M`, the memory (R21) -/
  mem : Memory
  /-- `CAP`, the number of cells of `M` (R22) -/
  cap : Nat
  /-- `pc`, the InstructionPointer, a non-negative integer (R23; log 3) -/
  pc : Nat
  /-- `rb`, the RelativeBase, signed (R24) -/
  rb : Word
  /-- `INQ`, the InputQueue, front first (R25) -/
  inq : List Word
  /-- `LOG`, the OutputLog, oldest value first (R26) -/
  log : List Word
  /-- `SUSPEND`, the SuspendPolicy (R27) -/
  suspend : Bool
  /-- `STATUS` (R28) -/
  status : Status
  /-- `FCAUSE` (R29): `none` is code 0, the spec's own "no fault" (log 23) -/
  fcause : Option Fault
  deriving DecidableEq, Repr

/-- The state after power-on: LOAD of the empty program and the empty input (R33, R270). Every value is the spec's. -/
def State.reset : State where
  mem := []
  cap := 0
  pc := 0
  rb := 0
  inq := []
  log := []
  suspend := false
  status := .ready
  fcause := none

end Sys2Proof.Machine
end

