-- ==== Sys2Proof/Machine/Ops.lean ====
section
/-! DEFINITION. The named operations over memory and registers: the one read and the one write of `M` (`20_memory.md`
rule R53), the register writes, `wrap64`, the numeric codes, fault entry (`60_exceptions.md` rule R236) and the end of an
instruction (`46_host_commands_run_control.md` rule R196). -/

namespace Sys2Proof.Machine

/-- `wrap64(x)`: the unique value congruent to `x` modulo 2^64 (R8, R142). -/
def wrap64 (x : Int) : Word := BitVec.ofInt 64 x

/-! ### The contents of memory -/

/-- What an address that is not listed holds: 0 ("zero-filled beyond the loaded program", R56, R57). -/
def unlistedCell : Word := 0

/-- The value a memory holds at an address. -/
def Memory.read : Memory → Nat → Word
  | [], _ => unlistedCell
  | (b, u) :: rest, a => if a = b then u else Memory.read rest a

/-- The memory with `v` at address `a`; a cell that comes to hold the unlisted value is no longer listed. -/
def Memory.write : Memory → Nat → Word → Memory
  | [], a, v => if v = unlistedCell then [] else [(a, v)]
  | (b, u) :: rest, a, v =>
    if a < b then
      if v = unlistedCell then (b, u) :: rest else (a, v) :: (b, u) :: rest
    else if a = b then
      if v = unlistedCell then rest else (a, v) :: rest
    else (b, u) :: Memory.write rest a v

/-- The canonical form: addresses strictly rising, no listed cell holding the unlisted value. -/
def Memory.wf : Memory → Bool
  | [] => true
  | (a, v) :: rest => decide (v ≠ unlistedCell) && rest.all (fun c => decide (a < c.1)) && Memory.wf rest

/-- The memory that holds the values of a list at `a`, `a+1`, ... and nothing else (LOAD, R192). -/
def Memory.image : Nat → List Word → Memory
  | _, [] => []
  | a, v :: vs => if v = unlistedCell then Memory.image (a + 1) vs else (a, v) :: Memory.image (a + 1) vs

/-- The memory whose cells from `n` up hold 0: what RESERVE makes of the new cells (R57, R193). -/
def Memory.keepBelow (n : Nat) (m : Memory) : Memory := m.filter (fun c => decide (c.1 < n))

/-- Every listed cell lies below `n`. -/
def Memory.below (n : Nat) (m : Memory) : Bool := m.all (fun c => decide (c.1 < n))

/-! ### The registers -/

def State.setMem (s : State) (m : Memory) : State := { s with mem := m }
def State.setCap (s : State) (n : Nat) : State := { s with cap := n }
def State.setPc (s : State) (n : Nat) : State := { s with pc := n }
def State.setRb (s : State) (v : Word) : State := { s with rb := v }
def State.setInq (s : State) (q : List Word) : State := { s with inq := q }
def State.setLog (s : State) (l : List Word) : State := { s with log := l }
def State.setSuspend (s : State) (b : Bool) : State := { s with suspend := b }
def State.setStatus (s : State) (st : Status) : State := { s with status := st }
def State.setFcause (s : State) (c : Option Fault) : State := { s with fcause := c }

/-! ### The two memory primitives (R9, R53) -/

/-- The address is one of the cells that exist: 0 <= addr < CAP (R52, R58). -/
abbrev State.HasCell (s : State) (addr : Int) : Prop := 0 ≤ addr ∧ addr < (s.cap : Int)

/-- `MemRead(addr, 1)` (R53), `addr` an exact integer. Fetches and operand reads alike come here. -/
def memRead (addr : Int) (s : State) : Except Fault Word :=
  if s.HasCell addr then .ok (s.mem.read addr.toNat) else .error .addressOutOfBounds

/-- `MemWrite(addr, 1, v)` (R53), `addr` an exact integer. -/
def memWrite (addr : Int) (v : Word) (s : State) : Except Fault State :=
  if s.HasCell addr then .ok (s.setMem (s.mem.write addr.toNat v)) else .error .addressOutOfBounds

/-! ### Codes (R28, R230) -/

/-- The code of a STATUS (R28). -/
def Status.code : Status → Nat
  | .ready => 0
  | .running => 1
  | .suspended => 2
  | .halted => 3
  | .faulted => 4

/-- `code(F)` (R230). -/
def Fault.code : Fault → Nat
  | .decodeError => 1
  | .writeToImmediate => 2
  | .inputUnderflow => 3
  | .addressOutOfBounds => 4

/-- The code FCAUSE holds: 0 for no fault (R29). -/
def fcauseCode : Option Fault → Nat
  | none => 0
  | some f => f.code

/-! ### How an instruction ends -/

/-- The event an instruction that completes returns (R110). -/
inductive Event where
  /-- `None`: every instruction but Output and Halt -/
  | noEvent
  /-- `Output(v)` -/
  | output (v : Word)
  /-- `Halt` -/
  | halt
  deriving DecidableEq, Repr

/-- The STATUS each event leaves (R196). -/
def Event.status : Event → Status
  | .noEvent => .ready
  | .output _ => .suspended
  | .halt => .halted

/-- Fault entry (R236): STATUS and FCAUSE are written and nothing else. -/
def takeFault (f : Fault) (s : State) : State := (s.setStatus .faulted).setFcause (some f)

/-- The end of an instruction begun in state `s`: a raised fault leaves `s` but for fault entry, none of the
instruction's changes being made (R234, R236); a completed one leaves its own state with the STATUS of its event
(R196). -/
def settle (s : State) : Except Fault (State × Event) → Host.Outcome State Fault Refusal
  | .error f => .next (takeFault f s)
  | .ok (t, e) => .next (t.setStatus e.status)

end Sys2Proof.Machine
end

