-- ==== Sys2Proof/Machine/Flags.lean ====
section
/-! DEFINITION. The conditions. There is no flag register (`10_state.md` rule R30): a comparison delivers the value 1 or
0 in a memory cell, and a jump tests a value. -/

namespace Sys2Proof.Machine

/-- The value a comparison delivers: exactly 1 or exactly 0 (R170, R171). -/
def truthCell (b : Bool) : Word := if b then 1 else 0

/-- Signed less-than (R170). -/
def signedLess (x y : Word) : Bool := decide (x.toInt < y.toInt)

/-- Equality of the 64-bit values (R171). -/
def sameValue (x y : Word) : Bool := decide (x = y)

/-- "True" is any non-zero value, negative values included (R160). -/
def nonzeroValue (v : Word) : Bool := decide (v ≠ 0)

/-- "False" is exactly the value 0 (R161). -/
def zeroValue (v : Word) : Bool := decide (v = 0)

end Sys2Proof.Machine
end

