-- ==== Sys2Proof/Machine/Operands.lean ====
section
/-! DEFINITION. The operand resolver (`40_fetch_decode_resolve.md` rules R118 to R121) and the shape all F3 instructions
share. -/

namespace Sys2Proof.Machine

/-- The address a Parameter names: the operand word itself, or `rb` as it is now plus the offset, the sum exact and
never wrapped (R59, R120). Immediate names none. -/
def effectiveAddress (s : State) : Param → Option Int
  | .position a => some a.toInt
  | .immediate _ => none
  | .relative o => some (s.rb.toInt + o.toInt)

/-- `ReadParam(P)` (R118). -/
def readParam (p : Param) (s : State) : Except Fault Word :=
  match effectiveAddress s p with
  | some addr => memRead addr s
  | none => .ok p.raw

/-- `WriteParam(P, v)` (R119). -/
def writeParam (p : Param) (v : Word) (s : State) : Except Fault State :=
  match effectiveAddress s p with
  | some addr => memWrite addr v s
  | none => .error .writeToImmediate

/-- The pc after an instruction with `n` operand words that does not jump: `pc + 1 + n` (R121). -/
def advance (n : Nat) (s : State) : State := s.setPc (s.pc + (1 + n))

/-- The F3 shape: read a, read b, write `f` of them to out, advance past three operand words (R82, R123). -/
def threeOperand (f : Word → Word → Word) (a b out : Param) (s : State) : Except Fault (State × Event) := do
  let va ← readParam a s
  let vb ← readParam b s
  let t ← writeParam out (f va vb) s
  pure (advance 3 t, .noEvent)

end Sys2Proof.Machine
end

