-- ==== Sys2Proof/Machine/Arithmetic.lean ====
section
/-! DEFINITION. ADD and MUL (`41_arithmetic.md`). -/

namespace Sys2Proof.Machine

/-- `wrap64(va + vb)`, the sum exact before it is narrowed (R140, R142). -/
def sumValue (va vb : Word) : Word := wrap64 (va.toInt + vb.toInt)

/-- `wrap64(va * vb)`, the product exact before it is narrowed (R141, R142). -/
def productValue (va vb : Word) : Word := wrap64 (va.toInt * vb.toInt)

/-- ADD (R140). -/
def execAdd (a b out : Param) (s : State) : Host.Outcome State Fault Refusal :=
  settle s (threeOperand sumValue a b out s)

/-- MUL (R141). -/
def execMul (a b out : Param) (s : State) : Host.Outcome State Fault Refusal :=
  settle s (threeOperand productValue a b out s)

end Sys2Proof.Machine
end

