-- ==== Sys2Proof/Machine/BaseHalt.lean ====
section
/-! DEFINITION. ARB and HLT (`45_base_halt.md`). -/

namespace Sys2Proof.Machine

/-- AdjustBase: a is resolved with the old `rb`, then added to it (R180, R120). -/
def adjustBase (a : Param) (s : State) : Except Fault (State × Event) := do
  let va ← readParam a s
  pure (advance 1 (s.setRb (wrap64 (s.rb.toInt + va.toInt))), .noEvent)

/-- ARB (R180). -/
def execArb (a : Param) (s : State) : Host.Outcome State Fault Refusal :=
  settle s (adjustBase a s)

/-- HLT (R181): pc advances by 1 (log 13) and the event is Halt. -/
def execHlt (s : State) : Host.Outcome State Fault Refusal :=
  settle s (.ok (advance 0 s, .halt))

end Sys2Proof.Machine
end

