-- ==== Sys2Proof/Machine/Compare.lean ====
section
/-! DEFINITION. LT and EQ (`44_compare.md`). -/

namespace Sys2Proof.Machine

/-- 1 if va < vb (signed) else 0 (R170). -/
def lessValue (va vb : Word) : Word := truthCell (signedLess va vb)

/-- 1 if va = vb else 0 (R171). -/
def equalValue (va vb : Word) : Word := truthCell (sameValue va vb)

/-- LT (R170). -/
def execLt (a b out : Param) (s : State) : Host.Outcome State Fault Refusal :=
  settle s (threeOperand lessValue a b out s)

/-- EQ (R171). -/
def execEq (a b out : Param) (s : State) : Host.Outcome State Fault Refusal :=
  settle s (threeOperand equalValue a b out s)

end Sys2Proof.Machine
end

