-- ==== Sys2Proof/Machine/InOut.lean ====
section
/-! DEFINITION. IN and OUT (`42_io.md`). -/

namespace Sys2Proof.Machine

/-- Input: the queue test, then the write, and the front leaves the queue only together with the write (R150, R123). -/
def takeInput (out : Param) (s : State) : Except Fault (State × Event) :=
  match s.inq with
  | [] => .error .inputUnderflow
  | v :: rest => do
    let t ← writeParam out v s
    pure (advance 1 (t.setInq rest), .noEvent)

/-- Output: the value goes to the log and to the event (R151). -/
def giveOutput (a : Param) (s : State) : Except Fault (State × Event) := do
  let v ← readParam a s
  pure (advance 1 (s.setLog (s.log ++ [v])), .output v)

/-- IN (R150). -/
def execInput (out : Param) (s : State) : Host.Outcome State Fault Refusal :=
  settle s (takeInput out s)

/-- OUT (R151). -/
def execOutput (a : Param) (s : State) : Host.Outcome State Fault Refusal :=
  settle s (giveOutput a s)

end Sys2Proof.Machine
end

