-- ==== Sys2Proof/Machine/Jumps.lean ====
section
/-! DEFINITION. JNZ and JZ (`43_jumps.md`). -/

namespace Sys2Proof.Machine

/-- The write of a taken jump's target: an absolute address; a negative one raises AddressOutOfBounds, one beyond the
capacity completes (R162). -/
def jumpTo (t : Word) (s : State) : Except Fault (State × Event) :=
  if t.toInt < 0 then .error .addressOutOfBounds else .ok (s.setPc t.toInt.toNat, .noEvent)

/-- A jump taken when the test holds of a; b is resolved only then (R160, R161, R162; log 9). -/
def conditionalJump (test : Word → Bool) (a b : Param) (s : State) : Except Fault (State × Event) := do
  let va ← readParam a s
  if test va then
    let t ← readParam b s
    jumpTo t s
  else
    pure (advance 2 s, .noEvent)

/-- JNZ (R160). -/
def execJnz (a b : Param) (s : State) : Host.Outcome State Fault Refusal :=
  settle s (conditionalJump nonzeroValue a b s)

/-- JZ (R161). -/
def execJz (a b : Param) (s : State) : Host.Outcome State Fault Refusal :=
  settle s (conditionalJump zeroValue a b s)

end Sys2Proof.Machine
end

