-- ==== Sys2Proof/Machine/Dispatch.lean ====
section
/-! DEFINITION. Phase 6, the closed ten-way dispatch (`40_fetch_decode_resolve.md` rule R117). -/

namespace Sys2Proof.Machine

def exec (i : Instr) (s : State) : Host.Outcome State Fault Refusal :=
  match i with
  | .add a b out => Sys2Proof.Machine.execAdd a b out s
  | .mul a b out => Sys2Proof.Machine.execMul a b out s
  | .input out => Sys2Proof.Machine.execInput out s
  | .output a => Sys2Proof.Machine.execOutput a s
  | .jnz a b => Sys2Proof.Machine.execJnz a b s
  | .jz a b => Sys2Proof.Machine.execJz a b s
  | .lt a b out => Sys2Proof.Machine.execLt a b out s
  | .eq a b out => Sys2Proof.Machine.execEq a b out s
  | .arb a => Sys2Proof.Machine.execArb a s
  | .hlt => Sys2Proof.Machine.execHlt s

end Sys2Proof.Machine
end

