-- ==== Sys2Proof/Machine/ExecOne.lean ====
section
/-! DEFINITION. The one-instruction step: fetch, decode, execute (`40_fetch_decode_resolve.md` rules R110 to R117), the
STEP command's state change (`46_host_commands_run_control.md` rule R196), and the placing of an instruction where it is
fetched. -/

namespace Sys2Proof.Machine

/-- Phase 4 and 5: the operand words at pc+1, pc+2, ... in ascending order, each through MemRead, then the Parameters
(R115, R116). -/
def fetchOperands (h : Head) (s : State) : Except Fault Instr :=
  match h with
  | .f3 op m1 m2 m3 => do
    let r1 ← memRead (s.pc + 1) s
    let r2 ← memRead (s.pc + 2) s
    let r3 ← memRead (s.pc + 3) s
    pure (op.instr (m1.param r1) (m2.param r2) (m3.param r3))
  | .f2 op m1 m2 => do
    let r1 ← memRead (s.pc + 1) s
    let r2 ← memRead (s.pc + 2) s
    pure (op.instr (m1.param r1) (m2.param r2))
  | .f1 op m1 => do
    let r1 ← memRead (s.pc + 1) s
    pure (op.instr (m1.param r1))
  | .f0 => pure .hlt

/-- Phases 1 to 5 (R111 to R116): the instruction word at pc, its checks, its operand words. -/
def fetch (s : State) : Except Fault Instr := do
  let w ← memRead s.pc s
  match decodeHead w with
  | .ok h => fetchOperands h s
  | .error _ => .error .decodeError

/-- `ExecOne()` (R110): one instruction, begun at pc; a fault of its fetch or decode is taken here. -/
def execOne (s : State) : Host.Outcome State Fault Refusal :=
  match fetch s with
  | .ok i => exec i s
  | .error f => .next (takeFault f s)

/-- HALTED and FAULTED: left only by LOAD, no instruction is executed in them (R28, R196). -/
def Status.terminal : Status → Bool
  | .ready => false
  | .running => false
  | .suspended => false
  | .halted => true
  | .faulted => true

/-- The start of a STEP: STATUS <- RUNNING (R196). -/
def beginStep (s : State) : State := s.setStatus .running

/-- What STEP does to the state (R196): nothing in HALTED and FAULTED, else one instruction. -/
def stepInstance (s : State) : Host.Outcome State Fault Refusal :=
  if s.status.terminal then .next s else execOne (beginStep s)

/-- `m` with the cells of a list at `a`, `a+1`, ... -/
def Memory.place : Memory → Nat → List Word → Memory
  | m, _, [] => m
  | m, a, v :: vs => Memory.place (m.write a v) (a + 1) vs

/-- The state with a list of cells placed at pc, in memory large enough for them, and ready to step: what LOAD and
RESERVE do for a program (R192, R193; log 20). -/
def placeAtPc (cells : List Word) (s : State) : State :=
  let t := (s.setMem (s.mem.place s.pc cells)).setCap (max s.cap (s.pc + cells.length))
  if s.status.terminal then (t.setStatus .ready).setFcause none else t

end Sys2Proof.Machine
end

