-- ==== Sys2Proof/Machine/Step.lean ====
section
/-! DEFINITION. One step of the machine: one STEP command (`46_host_commands_run_control.md` rule R196). -/

namespace Sys2Proof.Machine

/-- One step (R196). -/
def step (s : State) : Host.Outcome State Fault Refusal := stepInstance s

/-- `s` with the instruction whose bits are `w` stored where the next step fetches (log 20, log 28). -/
def State.withFetchWord (s : State) (nbits w : Nat) : State :=
  placeAtPc (tableCells nbits w) s

end Sys2Proof.Machine
end

