-- ==== Sys2Proof/Machine/Assembler.lean ====
section
/-! DEFINITION. The listing notation as abstract syntax, its two-pass assembler, and the listing of an instruction
(`30_encoding.md` rules R93, R94, R97). Text is not parsed: that is outside the block (R95; log 25). -/

namespace Sys2Proof.Machine

/-- A number of a listing: a signed decimal integer or a label (R93). -/
inductive AsmNumber where
  | literal (n : Int)
  | label (name : String)
  deriving DecidableEq, Repr

/-- An operand of a listing (R93): `[n]`, `#n`, `[rb+n]`, `[rb-n]`. -/
inductive AsmOperand where
  | position (n : AsmNumber)
  | immediate (n : AsmNumber)
  | relative (n : AsmNumber)
  | relativeMinus (n : AsmNumber)
  deriving DecidableEq, Repr

/-- A line of a listing (R93): `name:`, `MNEMONIC operands`, or `.word values`. That a value of `.word` may be a label is
the model's choice (DESIGN CHOICE, log 25). -/
inductive AsmLine where
  | label (name : String)
  | add (a b out : AsmOperand)
  | mul (a b out : AsmOperand)
  | input (out : AsmOperand)
  | output (a : AsmOperand)
  | jnz (a b : AsmOperand)
  | jz (a b : AsmOperand)
  | lt (a b out : AsmOperand)
  | eq (a b out : AsmOperand)
  | arb (a : AsmOperand)
  | hlt
  | word (values : List AsmNumber)
  deriving DecidableEq, Repr

/-- How many cells a line emits (R82, R93). -/
def AsmLine.cells : AsmLine → Nat
  | .label _ => 0
  | .add _ _ _ => 4
  | .mul _ _ _ => 4
  | .input _ => 2
  | .output _ => 2
  | .jnz _ _ => 3
  | .jz _ _ => 3
  | .lt _ _ _ => 4
  | .eq _ _ _ => 4
  | .arb _ => 2
  | .hlt => 1
  | .word vs => vs.length

/-- First pass: each label with the address of the next emitted cell (R93). Of a label that stands twice the first place
counts (DESIGN CHOICE, log 25). -/
def labelTable : Nat → List AsmLine → List (String × Nat)
  | _, [] => []
  | a, .label name :: ls => (name, a) :: labelTable a ls
  | a, l :: ls => labelTable (a + l.cells) ls

/-- The value of a number: a literal in [INT_MIN, INT_MAX] or a label's address; anything else has none. -/
def AsmNumber.value (labels : List (String × Nat)) : AsmNumber → Option Word
  | .literal n => if intMin ≤ n ∧ n ≤ intMax then some (BitVec.ofInt 64 n) else none
  | .label name => (labels.lookup name).map (BitVec.ofNat 64)

/-- The value of `-n`, for `[rb-n]` (R93). -/
def AsmNumber.negated (labels : List (String × Nat)) : AsmNumber → Option Word
  | .literal n => AsmNumber.value labels (.literal (-n))
  | .label name => (labels.lookup name).map (fun a => BitVec.ofInt 64 (-(a : Int)))

/-- The Parameter an operand stands for (R93). -/
def AsmOperand.param (labels : List (String × Nat)) : AsmOperand → Option Param
  | .position n => (n.value labels).map .position
  | .immediate n => (n.value labels).map .immediate
  | .relative n => (n.value labels).map .relative
  | .relativeMinus n => (n.negated labels).map .relative

/-- Second pass, one line: the cells it emits, instructions in their canonical encoding (R97). DESIGN CHOICE: a value of
`.word` may be a label, which then emits the label's address; R93 lets the n of an operand be a label and does not say
whether a value of `.word` may be one (log 25). -/
def AsmLine.emit (labels : List (String × Nat)) : AsmLine → Option (List Word)
  | .label _ => some []
  | .add a b out => do pure (encode (.add (← a.param labels) (← b.param labels) (← out.param labels)))
  | .mul a b out => do pure (encode (.mul (← a.param labels) (← b.param labels) (← out.param labels)))
  | .input out => do pure (encode (.input (← out.param labels)))
  | .output a => do pure (encode (.output (← a.param labels)))
  | .jnz a b => do pure (encode (.jnz (← a.param labels) (← b.param labels)))
  | .jz a b => do pure (encode (.jz (← a.param labels) (← b.param labels)))
  | .lt a b out => do pure (encode (.lt (← a.param labels) (← b.param labels) (← out.param labels)))
  | .eq a b out => do pure (encode (.eq (← a.param labels) (← b.param labels) (← out.param labels)))
  | .arb a => do pure (encode (.arb (← a.param labels)))
  | .hlt => some (encode .hlt)
  | .word vs => vs.mapM (AsmNumber.value labels)

/-- The cells of lines under a label table. -/
def emitAll (labels : List (String × Nat)) : List AsmLine → Option (List Word)
  | [] => some []
  | l :: ls => do pure ((← l.emit labels) ++ (← emitAll labels ls))

/-- The memory image of a listing (R93, R95, R97); none if a label is undefined or a literal does not fit a cell. -/
def assemble (ls : List AsmLine) : Option (List Word) := emitAll (labelTable 0 ls) ls

/-- The operand of a listing that stands for a Parameter (R93). -/
def operandOf : Param → AsmOperand
  | .position r => .position (.literal r.toInt)
  | .immediate r => .immediate (.literal r.toInt)
  | .relative r => .relative (.literal r.toInt)

/-- The line a disassembler prints for an instruction (R97). -/
def listing : Instr → AsmLine
  | .add a b out => .add (operandOf a) (operandOf b) (operandOf out)
  | .mul a b out => .mul (operandOf a) (operandOf b) (operandOf out)
  | .input out => .input (operandOf out)
  | .output a => .output (operandOf a)
  | .jnz a b => .jnz (operandOf a) (operandOf b)
  | .jz a b => .jz (operandOf a) (operandOf b)
  | .lt a b out => .lt (operandOf a) (operandOf b) (operandOf out)
  | .eq a b out => .eq (operandOf a) (operandOf b) (operandOf out)
  | .arb a => .arb (operandOf a)
  | .hlt => .hlt

/-- The mnemonics of R86 and R93. -/
def mnemonic : Instr → String
  | .add _ _ _ => "ADD"
  | .mul _ _ _ => "MUL"
  | .input _ => "IN"
  | .output _ => "OUT"
  | .jnz _ _ => "JNZ"
  | .jz _ _ => "JZ"
  | .lt _ _ _ => "LT"
  | .eq _ _ _ => "EQ"
  | .arb _ => "ARB"
  | .hlt => "HLT"

/-- A Parameter as text: `[n]`, `#n`, `[rb+n]` or `[rb-n]` (R93). -/
def paramText : Param → String
  | .position r => "[" ++ toString r.toInt ++ "]"
  | .immediate r => "#" ++ toString r.toInt
  | .relative r => if r.toInt < 0 then "[rb" ++ toString r.toInt ++ "]" else "[rb+" ++ toString r.toInt ++ "]"

/-- An instruction as text, `MNEMONIC operand, operand, operand` (R93). -/
def instrText (i : Instr) : String :=
  match i.params with
  | [] => mnemonic i
  | p :: ps => mnemonic i ++ " " ++ String.intercalate ", " (paramText p :: ps.map paramText)

end Sys2Proof.Machine
end

