-- ==== Sys2Proof/Config.lean ====
section
/-! DEFINITION. What an implementation fixes. The one parameter the spec leaves OPEN is CAP_MAX (`00_scope.md` rule R6,
decision D15); every other parameter of R6 has its value in the rules. -/

namespace Sys2Proof

/-- `CAP_MAX`, the greatest capacity memory can be grown to, OPEN with 0 <= CAP_MAX <= 2^63-1 (R6, D15). It has no
body a proof could look into: a statement about it holds for every value in the range (log 18). -/
opaque Config.capMax : Fin 9223372036854775808

end Sys2Proof
end

