-- ==== Sys2Proof/Machine/Commands.lean ====
section
/-! DEFINITION. The eight host commands, their responses, and RUN as the iteration of STEP
(`46_host_commands_run_control.md` rules R190 to R205). The capacity bound CAP_MAX is an argument here (R34); the
machine's own is `Config.capMax`. -/

namespace Sys2Proof.Machine

/-- What STEP and RUN hand back (R191). -/
inductive Signal where
  /-- `Output(v)`: an Output instruction has just produced `v` -/
  | output (v : Word)
  /-- `Halted`: a Halt instruction has executed, now or earlier -/
  | halted
  /-- `Fault(c)`: a fault with cause code `c` has been raised, now or earlier -/
  | fault (code : Nat)
  /-- `Stepped`: STEP only, one instruction executed that was neither Output nor Halt -/
  | stepped
  deriving DecidableEq, Repr

/-- Why a host command is refused; not a fault (R247). -/
inductive CommandRefusal where
  /-- LOAD or RESERVE beyond CAP_MAX (R192, R193) -/
  | capacityExceeded
  /-- READ_MEM outside [0, CAP) (R199) -/
  | badAddress
  deriving DecidableEq, Repr

/-- A command's response (R191, R205). -/
inductive Response where
  | ok
  | refused (r : CommandRefusal)
  | signal (s : Signal)
  | value (v : Word)
  | outputs (vs : List Word)
  deriving DecidableEq, Repr

/-- The host commands (R190). -/
inductive Command where
  /-- LOAD(P, I) (R192) -/
  | load (image input : List Word)
  /-- RESERVE(c), c a non-negative integer (R193) -/
  | reserve (c : Nat)
  /-- ENABLE_SUSPEND (R194) -/
  | enableSuspend
  /-- PUSH_INPUT(v) (R195) -/
  | pushInput (v : Word)
  /-- STEP (R196) -/
  | step
  /-- RUN (R197) -/
  | run
  /-- READ_OUTPUT_LOG (R198) -/
  | readOutputLog
  /-- READ_MEM(a), a any integer (R199) -/
  | readMem (a : Int)
  deriving DecidableEq, Repr

/-- The state LOAD(P, I) makes (R192). -/
def loadedState (image input : List Word) : State where
  mem := Memory.image 0 image
  cap := image.length
  pc := 0
  rb := 0
  inq := input
  log := []
  suspend := false
  status := .ready
  fcause := none

/-- LOAD(P, I) (R192). -/
def load (capMax : Nat) (image input : List Word) (s : State) : State × Response :=
  if image.length ≤ capMax then (loadedState image input, .ok) else (s, .refused .capacityExceeded)

/-- Memory grown to `c` cells, the new ones holding 0; never shrunk (R57, R193). -/
def growTo (c : Nat) (s : State) : State :=
  if s.cap < c then (s.setMem (s.mem.keepBelow s.cap)).setCap c else s

/-- RESERVE(c) (R193). -/
def reserve (capMax c : Nat) (s : State) : State × Response :=
  if capMax < c then (s, .refused .capacityExceeded) else (growTo c s, .ok)

/-- ENABLE_SUSPEND (R194). -/
def enableSuspend (s : State) : State × Response := (s.setSuspend true, .ok)

/-- PUSH_INPUT(v) (R195). -/
def pushInput (v : Word) (s : State) : State × Response := (s.setInq (s.inq ++ [v]), .ok)

/-- The last value produced: what the Signal `Output(v)` of a suspended instance carries (R151, R196). -/
def lastOutput (s : State) : Word := s.log.getLastD 0

/-- The Signal of the STEP that left state `s` (R191, R196): it "tells STATUS, FCAUSE and the value of the last output"
(R35). RUNNING is never left by a STEP (log 16). -/
def signalOf (s : State) : Signal :=
  match s.status with
  | .ready => .stepped
  | .running => .stepped
  | .suspended => .output (lastOutput s)
  | .halted => .halted
  | .faulted => .fault (fcauseCode s.fcause)

/-- The state a STEP leaves. `step` always answers a next state; the other two answers leave the state as it is. -/
def afterStep (s : State) : State :=
  match step s with
  | .next t => t
  | .fault _ => s
  | .refused _ => s

/-- STEP (R196). -/
def stepCommand (s : State) : State × Signal := (afterStep s, signalOf (afterStep s))

/-- RUN returns after a STEP that left `s`: HALTED, FAULTED, or an Output with SUSPEND = 1 (R197). -/
def runReturns (s : State) : Bool :=
  match s.status with
  | .ready => false
  | .running => false
  | .suspended => s.suspend
  | .halted => true
  | .faulted => true

/-- RUN for at most `n` STEPs (R197): nothing when it has not returned by then (R202). -/
def runFor : Nat → State → Option (State × Signal)
  | 0, _ => none
  | n + 1, s =>
    let t := afterStep s
    if runReturns t then some (t, signalOf t) else runFor n t

/-- RUN from `s` returns the Signal `sig` and leaves `t` (R197). A RUN that does not return has no Signal (R202). -/
def RunReturns (s t : State) (sig : Signal) : Prop := ∃ n, runFor n s = some (t, sig)

/-- READ_OUTPUT_LOG (R198). -/
def readOutputLog (s : State) : State × Response := (s, .outputs s.log)

/-- READ_MEM(a) (R199). -/
def readMem (a : Int) (s : State) : State × Response :=
  if s.HasCell a then (s, .value (s.mem.read a.toNat)) else (s, .refused .badAddress)

/-- A host command, a RUN given at most `fuel` STEPs: nothing when the RUN has not returned by then (R190, R202). -/
def command (capMax fuel : Nat) (c : Command) (s : State) : Option (State × Response) :=
  match c with
  | .load image input => some (load capMax image input s)
  | .reserve n => some (reserve capMax n s)
  | .enableSuspend => some (enableSuspend s)
  | .pushInput v => some (pushInput v s)
  | .step => some ((stepCommand s).1, .signal (stepCommand s).2)
  | .run => (runFor fuel s).map (fun r => (r.1, .signal r.2))
  | .readOutputLog => some (readOutputLog s)
  | .readMem a => some (readMem a s)

/-- Command `c` given in state `s` responds `r` and leaves `t`, under capacity bound `capMax` (R190). -/
def Answers (capMax : Nat) (c : Command) (s t : State) (r : Response) : Prop :=
  ∃ fuel, command capMax fuel c s = some (t, r)

/-- The commands of a session in order, each accepted when the one before it is done, and their responses (R190). -/
inductive Session (capMax : Nat) : State → List Command → List Response → State → Prop where
  | done (s : State) : Session capMax s [] [] s
  | more {s t u : State} {c : Command} {cs : List Command} {r : Response} {rs : List Response} :
      Answers capMax c s t r → Session capMax t cs rs u → Session capMax s (c :: cs) (r :: rs) u

end Sys2Proof.Machine
end

