-- ==== Sys2Proof/Machine/Instances.lean ====
section
/-! DEFINITION. Several instances: each is a separate copy of the block with its own state, nothing is shared, and the
host gives one command to one of them at a time (`20_memory.md` rule R67; `60_exceptions.md` rule R243;
`46_host_commands_run_control.md` rule R204). -/

namespace Sys2Proof.Machine

/-- The instances a host owns, in its own order (R204). -/
abbrev Instances := List State

/-- Command `c` given to instance `k` responds `r`; the instances after it are `after` (R204). -/
def AnswersAt (capMax k : Nat) (c : Command) (before after : Instances) (r : Response) : Prop :=
  ∃ s t, before[k]? = some s ∧ Answers capMax c s t r ∧ after = before.set k t

end Sys2Proof.Machine
end

