-- ==== Sys2Proof/Safety.lean ====
section
/-! DEFINITION. The terms claims are stated in: which operands can be read, what their values are, which states are
consistent, and what a safe run is. -/

namespace Sys2Proof.Machine

/-- The instance accepts a STEP or RUN that will execute: READY or SUSPENDED, which "are treated alike by every
command" (R28). -/
abbrev State.Accepting (s : State) : Prop := s.status = .ready ∨ s.status = .suspended

/-- A parameter can be read: it is Immediate, or its address is that of a cell that exists (R118). -/
abbrev Readable (p : Param) (s : State) : Prop := ∀ addr ∈ effectiveAddress s p, s.HasCell addr

/-- What a readable parameter reads as: the literal, or the cell at its address (R118). -/
def operandValue (p : Param) (s : State) : Word :=
  match effectiveAddress s p with
  | some addr => s.mem.read addr.toNat
  | none => p.raw

/-- The cells of memory at pc, at most `n` of them and none beyond the capacity: what the decoder is given (R80). -/
def State.window (s : State) (n : Nat) : List Word :=
  (List.range (min n (s.cap - s.pc))).map (fun k => s.mem.read (s.pc + k))

/-- A safe run has raised no fault. -/
abbrev State.NoFault (s : State) : Prop := s.status ≠ .faulted

/-- The relations between the items of state that hold between commands, under a capacity bound. -/
structure Consistent (capMax : Nat) (s : State) : Prop where
  /-- memory is in its canonical form (log 2) -/
  memCanonical : s.mem.wf = true
  /-- no listed cell lies at or above CAP (R21, R22) -/
  memBelowCap : s.mem.below s.cap = true
  /-- 0 <= CAP <= CAP_MAX (R22) -/
  capBound : s.cap ≤ capMax
  /-- 0 <= pc <= 2^63-1 (R23) -/
  pcBound : (s.pc : Int) ≤ intMax
  /-- STATUS is never RUNNING between commands (R28, R190) -/
  notRunning : s.status ≠ .running
  /-- "FCAUSE ≠ 0 exactly when STATUS = FAULTED" (R29) -/
  causeWhenFaulted : s.fcause ≠ none ↔ s.status = .faulted
  /-- SUSPENDED follows an output (R28) -/
  outputWhenSuspended : s.status = .suspended → s.log ≠ []

/-- What ADD, MUL, LT and EQ share (R140, R141, R170, R171), for the instruction `ins` and the result `result` of the
two values read: it completes when a and b are readable and out is the address of a cell that exists, and raises the
first fault in the order a, b, out otherwise. -/
def ThreeOperandRule (ins : Param → Param → Param → Instr) (result : Word → Word → Word) : Prop :=
  ∀ (a b out : Param) (s : State),
    (∀ d, Readable a s → Readable b s → effectiveAddress s out = some d → s.HasCell d →
      exec (ins a b out) s =
        .next { s with
          mem := s.mem.write d.toNat (result (operandValue a s) (operandValue b s))
          pc := s.pc + 4
          status := .ready }) ∧
    (¬ Readable a s → exec (ins a b out) s = .next (takeFault .addressOutOfBounds s)) ∧
    (Readable a s → ¬ Readable b s → exec (ins a b out) s = .next (takeFault .addressOutOfBounds s)) ∧
    (Readable a s → Readable b s → effectiveAddress s out = none →
      exec (ins a b out) s = .next (takeFault .writeToImmediate s)) ∧
    (∀ d, Readable a s → Readable b s → effectiveAddress s out = some d → ¬ s.HasCell d →
      exec (ins a b out) s = .next (takeFault .addressOutOfBounds s))

/-- The encoding of an F3 instruction: word `CBAOO`, length 4 (R82, R97). -/
def ThreeOperandEncoding (ins : Param → Param → Param → Instr) (opcode : Nat) : Prop :=
  ∀ a b out : Param,
    encode (ins a b out) =
      [BitVec.ofNat 64 (opcode + 100 * a.mode.digit + 1000 * b.mode.digit + 10000 * out.mode.digit),
        a.raw, b.raw, out.raw]

/-- What JNZ and JZ share (R160, R161), for the instruction `ins` and the condition `taken` on the value of a. -/
def JumpRule (ins : Param → Param → Instr) (taken : Word → Prop) : Prop :=
  ∀ (a b : Param) (s : State),
    (Readable a s → ¬ taken (operandValue a s) →
      exec (ins a b) s = .next { s with pc := s.pc + 3, status := .ready }) ∧
    (Readable a s → taken (operandValue a s) → Readable b s → 0 ≤ (operandValue b s).toInt →
      exec (ins a b) s = .next { s with pc := (operandValue b s).toInt.toNat, status := .ready }) ∧
    (¬ Readable a s → exec (ins a b) s = .next (takeFault .addressOutOfBounds s)) ∧
    (Readable a s → taken (operandValue a s) → ¬ Readable b s →
      exec (ins a b) s = .next (takeFault .addressOutOfBounds s)) ∧
    (Readable a s → taken (operandValue a s) → Readable b s → (operandValue b s).toInt < 0 →
      exec (ins a b) s = .next (takeFault .addressOutOfBounds s))

/-- The encoding of an F2R instruction: word `BAOO`, length 3 (R82, R97). -/
def JumpEncoding (ins : Param → Param → Instr) (opcode : Nat) : Prop :=
  ∀ a b : Param,
    encode (ins a b) =
      [BitVec.ofNat 64 (opcode + 100 * a.mode.digit + 1000 * b.mode.digit), a.raw, b.raw]

/-- The items of state no instruction of these forms writes: what `t` must agree with `s` in, whether the instruction
completed or raised a fault. FCAUSE is written by fault entry alone (R236), and CAP and SUSPEND by no instruction (R22,
R27). -/
structure KeepsControl (s t : State) : Prop where
  cap : t.cap = s.cap
  suspend : t.suspend = s.suspend
  fcause : t.status ≠ .faulted → t.fcause = s.fcause

/-- Every cell reads as before, but for the address in `stored` if there is one; an address that did not exist still
does not. -/
def MemoryKeptOutside (stored : Option Int) (s t : State) : Prop :=
  ∀ addr : Int, stored ≠ some addr → memRead addr t = memRead addr s

/-- No command of a session is a LOAD. -/
def NoLoad (cs : List Command) : Prop := ∀ image input, Command.load image input ∉ cs

end Sys2Proof.Machine
end

