-- ==== Sys2Proof/Certificates/Slice0/Obligations.lean ====
section
/-! DEFINITION. The statements for the provers. -/

open Sys2Proof Sys2Proof.Machine

/-! ### Reset and the state -/

/-- Power-on leaves LOAD of the empty program and the empty input, from whatever state, under whatever bound: no cells,
CAP = 0, pc = 0, rb = 0, both sequences empty, SUSPEND = 0, STATUS = READY, FCAUSE = 0 (R33, R270; the spec's decision
D27). -/
def Obligations.PowerOnIsEmptyLoad : Prop :=
  (∀ (capMax : Nat) (s : State), load capMax [] [] s = (State.reset, .ok)) ∧
    State.reset.cap = 0 ∧ State.reset.pc = 0 ∧ State.reset.rb = 0 ∧ State.reset.inq = [] ∧ State.reset.log = [] ∧
    State.reset.suspend = false ∧ State.reset.status.code = 0 ∧ fcauseCode State.reset.fcause = 0 ∧
    ∀ a : Int, memRead a State.reset = .error .addressOutOfBounds

/-- The state after power-on is consistent, under every bound on the capacity. -/
def Obligations.ResetIsConsistent : Prop := ∀ capMax, Consistent capMax State.reset

/-- Every step keeps the state consistent: memory canonical and below CAP, CAP within its bound, pc within [0, 2^63-1],
STATUS never RUNNING, FCAUSE set exactly when FAULTED, an output behind SUSPENDED (R21, R22, R23, R28, R29). -/
def Obligations.StepKeepsConsistent : Prop :=
  ∀ (capMax : Nat) (s t : State), (capMax : Int) ≤ intMax → Consistent capMax s → step s = .next t → Consistent capMax t

/-- Every host command, RUN included, keeps the state consistent. -/
def Obligations.CommandsKeepConsistent : Prop :=
  ∀ (capMax : Nat) (c : Command) (s t : State) (r : Response),
    (capMax : Int) ≤ intMax → Consistent capMax s → Answers capMax c s t r → Consistent capMax t

/-- Whatever commands the host gives from power-on, the state is consistent after each of them; in particular it is so
on this machine, whatever its CAP_MAX. -/
def Obligations.SessionsStayConsistent : Prop :=
  (∀ (capMax : Nat) (cs : List Command) (rs : List Response) (t : State),
    (capMax : Int) ≤ intMax → Session capMax State.reset cs rs t → Consistent capMax t) ∧
  ∀ (cs : List Command) (rs : List Response) (t : State),
    Session Config.capMax.val State.reset cs rs t → Consistent Config.capMax.val t

/-! ### Memory -/

/-- In a memory of canonical form, a write followed by a read of the same address returns the written value; in any
memory, a write leaves every other address as it was. A write keeps the canonical form (R53, R55). -/
def Obligations.ReadAfterWrite : Prop :=
  ∀ (s t : State) (d : Int) (v : Word), memWrite d v s = .ok t →
    (∀ a : Int, a ≠ d → memRead a t = memRead a s) ∧ (s.mem.wf = true → memRead d t = .ok v ∧ t.mem.wf = true)

/-- Two canonical memories that hold the same value at every address are the same data. -/
def Obligations.CanonicalMemoryUnique : Prop :=
  ∀ m n : Memory, m.wf = true → n.wf = true → (∀ a, m.read a = n.read a) → m = n

/-- `wrap64(x)` is in [INT_MIN, INT_MAX], congruent to x modulo 2^64, and the only such value (R8). -/
def Obligations.WrapIsTheCongruentValue : Prop :=
  ∀ x : Int, intMin ≤ (wrap64 x).toInt ∧ (wrap64 x).toInt ≤ intMax ∧ (wrap64 x).toInt % 2 ^ 64 = x % 2 ^ 64 ∧
    ∀ v : Int, intMin ≤ v → v ≤ intMax → v % 2 ^ 64 = x % 2 ^ 64 → v = (wrap64 x).toInt

/-! ### Encoding and decoding -/

/-- Decoding the canonical cells of any instruction, whatever cells follow, gives the instruction and those cells back:
every operand at every value, ill-formed write targets included (R80 to R86, R97). -/
def Obligations.DecodeOfEncode : Prop :=
  ∀ (i : Instr) (rest : List Word), decode (encode i ++ rest) = .ok (i, rest)

/-- A list of cells that decodes is an instruction word, the raw operands of the instruction it decodes to, and the
cells left over; it has the instruction's length; and its opcode digits and the mode digits of the parameters it has are
the canonical word's (R80, R81, R84). -/
def Obligations.DecodedCells : Prop :=
  ∀ (cells rest : List Word) (i : Instr), decode cells = .ok (i, rest) →
    ∃ w, cells = w :: (i.params.map Param.raw ++ rest) ∧ 0 ≤ w.toInt ∧ cells.length = i.length + rest.length ∧
      w.toNat % (10 ^ (2 + i.params.length)) = i.word

/-- Which instruction words decode: exactly the non-negative ones whose opcode is 1 to 9 or 99 and whose mode digits, of
the parameters that opcode has, are at most 2. Negative words and mode digits 3 to 9 are the spec's decisions D6 and D8. -/
def Obligations.DecodableWords : Prop :=
  ∀ w : Word, (∃ h, decodeHead w = .ok h) ↔
    0 ≤ w.toInt ∧ ∃ op, opcodeOf (w.toNat % 100) = some op ∧
      w.toNat % 100 ∈ [1, 2, 3, 4, 5, 6, 7, 8, 9, 99] ∧
      ∀ k, 1 ≤ k → k ≤ op.nparams → w.toNat / 10 ^ (k + 1) % 10 ≤ 2

/-- Digits that are not examined change nothing: two non-negative words with the same opcode and the same mode digits of
the parameters it has decode alike. This is the spec's decision D9. -/
def Obligations.UnexaminedDigitsIgnored : Prop :=
  ∀ (v w : Word) (op : Opcode), 0 ≤ v.toInt → 0 ≤ w.toInt → opcodeOf (w.toNat % 100) = some op →
    v.toNat % 10 ^ (2 + op.nparams) = w.toNat % 10 ^ (2 + op.nparams) → decodeHead v = decodeHead w

/-- Words written out from the spec's encoding decode to what they stand for: one for each instruction, with each mode
in each place it can have (R81, R83, R86, R90, and the listings of R93). -/
def Obligations.WrittenOutWordsDecode : Prop :=
  decode [1, 5, 6, 7] = .ok (.add (.position 5) (.position 6) (.position 7), []) ∧
  decode [1002, 4, 3, 4] = .ok (.mul (.position 4) (.immediate 3) (.position 4), []) ∧
  decode [22201, 1, 2, 3] = .ok (.add (.relative 1) (.relative 2) (.relative 3), []) ∧
  decode [203, 2] = .ok (.input (.relative 2), []) ∧
  decode [204, -1] = .ok (.output (.relative (-1)), []) ∧
  decode [1105, 1, 7] = .ok (.jnz (.immediate 1) (.immediate 7), []) ∧
  decode [1006, 15, 14] = .ok (.jz (.position 15) (.immediate 14), []) ∧
  decode [11107, 1, 2, 3] = .ok (.lt (.immediate 1) (.immediate 2) (.immediate 3), []) ∧
  decode [8, 5, 6, 0] = .ok (.eq (.position 5) (.position 6) (.position 0), []) ∧
  decode [109, 19] = .ok (.arb (.immediate 19), []) ∧
  decode [99] = .ok (.hlt, [])

/-- A listing of instructions assembles to their canonical cells in order (R93, R97; the notation is the spec's decision
D31). -/
def Obligations.ListingAssembles : Prop :=
  ∀ is : List Instr, assemble (is.map listing) = some (is.flatMap encode)

/-! ### Fetch, decode and the step -/

/-- When the cells at pc decode to an instruction, the step of an accepting instance is exec of it, after STATUS is set
to RUNNING; exec does not look at STATUS, so it is also exec at the state itself (R110, R196). Ill-formed instructions
are not left out. -/
def Obligations.StepRunsDecodedInstruction : Prop :=
  ∀ (s : State) (i : Instr) (rest : List Word), s.Accepting → decode (s.window 4) = .ok (i, rest) →
    step s = exec i (beginStep s) ∧ step s = exec i s

/-- When the cells at pc do not decode, the step takes a fault: DecodeError for what the instruction word says,
AddressOutOfBounds for a cell that does not exist, the instruction word's checks coming first. That order is the spec's
decision D10. -/
def Obligations.StepFaultsWhereNothingDecodes : Prop :=
  ∀ (s : State) (e : DecodeReject), s.Accepting → decode (s.window 4) = .error e →
    step s = .next (takeFault
      (if e = .noInstructionWord ∨ e = .missingOperandWord then .addressOutOfBounds else .decodeError) s)

/-- R111: at pc >= CAP the fetch raises AddressOutOfBounds. -/
def Obligations.FetchBeyondCapacity : Prop :=
  ∀ s : State, s.Accepting → s.cap ≤ s.pc →
    memRead s.pc s = .error .addressOutOfBounds ∧ step s = .next (takeFault .addressOutOfBounds s)

/-- R87: a non-negative instruction word whose opcode is none of the ten raises DecodeError, whatever cells follow it;
0 and 10 to 98 are the illegal opcodes, and the word 0 is one. -/
def Obligations.IllegalOpcodeRaisesDecodeError : Prop :=
  (∀ (s : State) (w : Word), s.Accepting → memRead s.pc s = .ok w → 0 ≤ w.toInt →
    w.toNat % 100 ∉ [1, 2, 3, 4, 5, 6, 7, 8, 9, 99] → step s = .next (takeFault .decodeError s)) ∧
  (∀ s : State, s.Accepting → memRead s.pc s = .ok 0 → step s = .next (takeFault .decodeError s)) ∧
  ∀ n, n < 100 → (n ∉ [1, 2, 3, 4, 5, 6, 7, 8, 9, 99] ↔ n = 0 ∨ 10 ≤ n ∧ n ≤ 98)

/-- A mode digit 3 to 9 of a parameter the opcode has raises DecodeError, whether or not the operand words exist. These
are the spec's decisions D8 and D10. -/
def Obligations.IllegalModeRaisesDecodeError : Prop :=
  ∀ (s : State) (w : Word) (op : Opcode) (k : Nat), s.Accepting → memRead s.pc s = .ok w → 0 ≤ w.toInt →
    opcodeOf (w.toNat % 100) = some op → 1 ≤ k → k ≤ op.nparams → 3 ≤ w.toNat / 10 ^ (k + 1) % 10 →
    step s = .next (takeFault .decodeError s)

/-- R115: all operand words of the opcode are fetched, for every instruction: the step raises AddressOutOfBounds when
pc + n >= CAP, and otherwise the raw operands are the cells at pc+1 to pc+n. -/
def Obligations.OperandWordsFetched : Prop :=
  ∀ (s : State) (w : Word) (h : Head), s.Accepting → memRead s.pc s = .ok w → decodeHead w = .ok h →
    (s.cap ≤ s.pc + h.opcode.nparams → step s = .next (takeFault .addressOutOfBounds s)) ∧
    (s.pc + h.opcode.nparams < s.cap → ∃ i, fetch s = .ok i ∧ step s = exec i s ∧
      i.params.map Param.raw = (List.range h.opcode.nparams).map (fun k => s.mem.read (s.pc + 1 + k)))

/-- Every step answers a next state: faults are taken, and no instruction and no command is refused (R110, R196, R236).
Likewise every instruction, in every state. -/
def Obligations.EveryStepHasNextState : Prop :=
  (∀ s, ∃ t, step s = .next t) ∧ ∀ i s, ∃ t, exec i s = .next t

/-! ### The operand resolver -/

/-- R118: what reading a parameter gives, for the three modes, and when it raises AddressOutOfBounds. -/
def Obligations.ReadParamGives : Prop :=
  ∀ (s : State) (x : Word),
    readParam (.immediate x) s = .ok x ∧
    readParam (.position x) s = memRead x.toInt s ∧
    readParam (.relative x) s = memRead (s.rb.toInt + x.toInt) s ∧
    ∀ addr : Int,
      (0 ≤ addr → addr < s.cap → memRead addr s = .ok (s.mem.read addr.toNat)) ∧
      (addr < 0 ∨ (s.cap : Int) ≤ addr → memRead addr s = .error .addressOutOfBounds)

/-- R119: what writing a parameter does, for the three modes, and when it raises which fault. -/
def Obligations.WriteParamStores : Prop :=
  ∀ (s : State) (x v : Word),
    writeParam (.immediate x) v s = .error .writeToImmediate ∧
    writeParam (.position x) v s = memWrite x.toInt v s ∧
    writeParam (.relative x) v s = memWrite (s.rb.toInt + x.toInt) v s ∧
    ∀ addr : Int,
      (0 ≤ addr → addr < s.cap → memWrite addr v s = .ok { s with mem := s.mem.write addr.toNat v }) ∧
      (addr < 0 ∨ (s.cap : Int) ≤ addr → memWrite addr v s = .error .addressOutOfBounds)

/-- The address of a Relative parameter is the exact sum: when it lies outside [0, CAP) the access raises
AddressOutOfBounds, also where the sum modulo 2^64 would be the address of a cell. This is the spec's decision D4. -/
def Obligations.RelativeAddressNeverWraps : Prop :=
  ∀ (s : State) (o v : Word), ¬ s.HasCell (s.rb.toInt + o.toInt) →
    readParam (.relative o) s = .error .addressOutOfBounds ∧
    writeParam (.relative o) v s = .error .addressOutOfBounds

/-! ### The instructions -/

/-- R140, ADD: encoding, effect, and faults in order. (That the sum wraps is also R142's decision D3.) -/
def Obligations.AddRule : Prop :=
  ThreeOperandEncoding .add 1 ∧ ThreeOperandRule .add (fun va vb => wrap64 (va.toInt + vb.toInt))

/-- R141, MUL: encoding, effect, and faults in order. (That the product wraps is also R142's decision D3.) -/
def Obligations.MultiplyRule : Prop :=
  ThreeOperandEncoding .mul 2 ∧ ThreeOperandRule .mul (fun va vb => wrap64 (va.toInt * vb.toInt))

/-- R170, LT: encoding, effect, and faults in order; the result is exactly 1 or exactly 0 by signed comparison. -/
def Obligations.LessThanRule : Prop :=
  ThreeOperandEncoding .lt 7 ∧ ThreeOperandRule .lt (fun va vb => if va.toInt < vb.toInt then 1 else 0)

/-- R171, EQ: encoding, effect, and faults in order; the result is exactly 1 or exactly 0. -/
def Obligations.EqualsRule : Prop :=
  ThreeOperandEncoding .eq 8 ∧ ThreeOperandRule .eq (fun va vb => if va.toInt = vb.toInt then 1 else 0)

/-- R150, IN: encoding; it takes the front of INQ into out and never suspends; InputUnderflow first, then
WriteToImmediate, then AddressOutOfBounds, each leaving INQ as it was. -/
def Obligations.InputRule : Prop :=
  ∀ (out : Param) (s : State),
    encode (.input out) = [BitVec.ofNat 64 (3 + 100 * out.mode.digit), out.raw] ∧
    (∀ v rest d, s.inq = v :: rest → effectiveAddress s out = some d → s.HasCell d →
      exec (.input out) s =
        .next { s with mem := s.mem.write d.toNat v, inq := rest, pc := s.pc + 2, status := .ready }) ∧
    (s.inq = [] → exec (.input out) s = .next (takeFault .inputUnderflow s)) ∧
    (s.inq ≠ [] → effectiveAddress s out = none → exec (.input out) s = .next (takeFault .writeToImmediate s)) ∧
    (∀ d, s.inq ≠ [] → effectiveAddress s out = some d → ¬ s.HasCell d →
      exec (.input out) s = .next (takeFault .addressOutOfBounds s))

/-- R151, OUT: encoding; the value read is appended to LOG and carried by the Signal Output(v); AddressOutOfBounds
leaves LOG as it was. -/
def Obligations.OutputRule : Prop :=
  ∀ (a : Param) (s : State),
    encode (.output a) = [BitVec.ofNat 64 (4 + 100 * a.mode.digit), a.raw] ∧
    (Readable a s → ∃ t, exec (.output a) s = .next t ∧
      t = { s with log := s.log ++ [operandValue a s], pc := s.pc + 2, status := .suspended } ∧
      signalOf t = .output (operandValue a s)) ∧
    (¬ Readable a s → exec (.output a) s = .next (takeFault .addressOutOfBounds s))

/-- R160, JNZ: encoding; taken when the value of a is not 0, the target absolute; b is resolved only then. (Not resolving
b of a jump not taken, and faulting on a negative target, are R162's decisions D18 and D16.) -/
def Obligations.JumpIfTrueRule : Prop :=
  JumpEncoding .jnz 5 ∧ JumpRule .jnz (fun va => va.toInt ≠ 0)

/-- R161, JZ: encoding; taken when the value of a is 0, the target absolute; b is resolved only then. (Not resolving b
of a jump not taken, and faulting on a negative target, are R162's decisions D18 and D16.) -/
def Obligations.JumpIfFalseRule : Prop :=
  JumpEncoding .jz 6 ∧ JumpRule .jz (fun va => va.toInt = 0)

/-- ARB: encoding; the value of a, resolved with the old rb, is added to rb; AddressOutOfBounds leaves rb as it was. That
a sum outside the range wraps is the spec's decision D3. -/
def Obligations.AdjustBaseRule : Prop :=
  ∀ (a : Param) (s : State),
    encode (.arb a) = [BitVec.ofNat 64 (9 + 100 * a.mode.digit), a.raw] ∧
    (Readable a s → exec (.arb a) s =
      .next { s with rb := wrap64 (s.rb.toInt + (operandValue a s).toInt), pc := s.pc + 2, status := .ready }) ∧
    (¬ Readable a s → exec (.arb a) s = .next (takeFault .addressOutOfBounds s))

/-- HLT: encoding; in every state it completes, leaves HALTED with the Signal Halted, and changes nothing else but pc.
Where pc stands after a Halt is the spec's decision D17, and its U7 asks that no claim mention it: this one does not. -/
def Obligations.HaltRule : Prop :=
  encode .hlt = [99] ∧
  ∀ s : State, ∃ t, exec .hlt s = .next t ∧ t = { s with pc := t.pc, status := .halted } ∧ signalOf t = .halted

/-- An instruction other than a jump or Halt that completes moves pc past its own cells (R121). -/
def Obligations.PcAdvancesByLength : Prop :=
  ∀ (i : Instr) (s t : State), i ≠ .hlt → (∀ a b, i ≠ .jnz a b ∧ i ≠ .jz a b) →
    exec i s = .next t → t.status ≠ .faulted → t.pc = s.pc + i.length

/-! ### Frames -/

/-- ADD, MUL, LT, EQ change memory at out's address only, and no other item of state but pc, STATUS, and FCAUSE at fault
entry. -/
def Obligations.ThreeOperandFrame : Prop :=
  ∀ (a b out : Param) (i : Instr) (s t : State),
    i = .add a b out ∨ i = .mul a b out ∨ i = .lt a b out ∨ i = .eq a b out → exec i s = .next t →
    MemoryKeptOutside (effectiveAddress s out) s t ∧ KeepsControl s t ∧ t.rb = s.rb ∧ t.inq = s.inq ∧ t.log = s.log

/-- IN changes memory at out's address only, takes at most the front of INQ, and changes no other item of state but pc,
STATUS, and FCAUSE at fault entry. -/
def Obligations.InputFrame : Prop :=
  ∀ (out : Param) (s t : State), exec (.input out) s = .next t →
    MemoryKeptOutside (effectiveAddress s out) s t ∧ KeepsControl s t ∧ t.rb = s.rb ∧ t.log = s.log ∧
    (t.inq = s.inq.tail ∨ t.inq = s.inq)

/-- OUT stores nothing to memory, appends at most one value to LOG, and changes no other item of state but pc, STATUS,
and FCAUSE at fault entry. -/
def Obligations.OutputFrame : Prop :=
  ∀ (a : Param) (s t : State), exec (.output a) s = .next t →
    MemoryKeptOutside none s t ∧ KeepsControl s t ∧ t.rb = s.rb ∧ t.inq = s.inq ∧
    (t.log = s.log ∨ t.log = s.log ++ [operandValue a s])

/-- JNZ, JZ and HLT store nothing to memory and change no item of state but pc, STATUS, and FCAUSE at fault entry. -/
def Obligations.JumpAndHaltFrame : Prop :=
  ∀ (a b : Param) (i : Instr) (s t : State), i = .jnz a b ∨ i = .jz a b ∨ i = .hlt → exec i s = .next t →
    MemoryKeptOutside none s t ∧ KeepsControl s t ∧ t.rb = s.rb ∧ t.inq = s.inq ∧ t.log = s.log

/-- ARB stores nothing to memory and changes no item of state but rb, pc, STATUS, and FCAUSE at fault entry. -/
def Obligations.AdjustBaseFrame : Prop :=
  ∀ (a : Param) (s t : State), exec (.arb a) s = .next t →
    MemoryKeptOutside none s t ∧ KeepsControl s t ∧ t.inq = s.inq ∧ t.log = s.log

/-! ### Faults -/

/-- Faults are precise: a step that leaves an accepting instance FAULTED has changed STATUS and FCAUSE and nothing else.
This is the spec's decision D12, with D13 and D14 for the two registers. -/
def Obligations.FaultsArePrecise : Prop :=
  (∀ (i : Instr) (s t : State), exec i s = .next t → t.status = .faulted →
    ∃ f, t = { s with status := .faulted, fcause := some f }) ∧
  ∀ s t : State, s.Accepting → step s = .next t → t.status = .faulted →
    ∃ f, t = { s with status := .faulted, fcause := some f }

/-- Which instruction can raise which fault once it is decoded: the table of R231. -/
def Obligations.FaultsEachInstructionCanRaise : Prop :=
  ∀ (i : Instr) (s t : State) (f : Fault), exec i s = .next t → t.status = .faulted → t.fcause = some f →
    match i with
    | .add _ _ _ | .mul _ _ _ | .lt _ _ _ | .eq _ _ _ => f = .writeToImmediate ∨ f = .addressOutOfBounds
    | .input _ => f = .inputUnderflow ∨ f = .writeToImmediate ∨ f = .addressOutOfBounds
    | .output _ | .arb _ | .jnz _ _ | .jz _ _ => f = .addressOutOfBounds
    | .hlt => False

/-- An instruction whose write target is Immediate never completes (R85). -/
def Obligations.IllFormedNeverCompletes : Prop :=
  ∀ (i : Instr) (s t : State), i.wellFormed = false → exec i s = .next t → t.status = .faulted

/-- HALTED and FAULTED stay: a step changes nothing, and RUN returns at once with nothing changed. This is the spec's
decision D20. -/
def Obligations.StoppedStaysStopped : Prop :=
  ∀ s : State, s.status = .halted ∨ s.status = .faulted →
    step s = .next s ∧ ∀ t sig, RunReturns s t sig ↔
      t = s ∧ sig = if s.status = .halted then .halted else .fault (fcauseCode s.fcause)

/-- No command but LOAD leaves HALTED or FAULTED, whatever the session: STATUS, FCAUSE, pc, rb and LOG stay, and no cell
below CAP changes (R200, R237; the spec's decision D20). -/
def Obligations.OnlyLoadRevives : Prop :=
  ∀ (capMax : Nat) (s t : State) (cs : List Command) (rs : List Response),
    s.status = .halted ∨ s.status = .faulted → NoLoad cs → Session capMax s cs rs t →
    t.status = s.status ∧ t.fcause = s.fcause ∧ t.pc = s.pc ∧ t.rb = s.rb ∧ t.log = s.log ∧
      ∀ a : Int, a < s.cap → memRead a t = memRead a s

/-! ### Whole-machine rules -/

/-- A step never writes CAP or SUSPEND, and LOG only grows, by at most one value (R22, R26, R27). -/
def Obligations.StepKeepsCapacityAndPolicy : Prop :=
  ∀ s t : State, step s = .next t →
    t.cap = s.cap ∧ t.suspend = s.suspend ∧ (t.log = s.log ∨ ∃ v, t.log = s.log ++ [v] ∧ t.status = .suspended)

/-- rb is changed by no instruction but ARB, and INQ by none but IN, which takes its front (R24, R25). -/
def Obligations.OnlyArbWritesBaseOnlyInTakesInput : Prop :=
  ∀ (i : Instr) (s t : State), exec i s = .next t →
    (t.rb ≠ s.rb → ∃ a, i = .arb a) ∧
    (t.inq ≠ s.inq → ∃ out v, i = .input out ∧ s.inq = v :: t.inq)

/-- A cell that an instruction changes is the one its write parameter names (R21, R55). -/
def Obligations.OnlyWriteParameterChangesMemory : Prop :=
  ∀ (i : Instr) (s t : State) (addr : Int), exec i s = .next t → memRead addr t ≠ memRead addr s →
    ∃ out, i.writeParam? = some out ∧ effectiveAddress s out = some addr

/-- A program cannot learn LOG, SUSPEND, FCAUSE or which accepting STATUS holds: two instances that differ in these alone
step to states with the same memory, CAP, pc, rb and INQ, and the same STATUS (R240). -/
def Obligations.ProgramCannotReadHostSide : Prop :=
  ∀ s u s' u' : State, s.Accepting → u.Accepting →
    u.mem = s.mem → u.cap = s.cap → u.pc = s.pc → u.rb = s.rb → u.inq = s.inq →
    step s = .next s' → step u = .next u' →
    u'.mem = s'.mem ∧ u'.cap = s'.cap ∧ u'.pc = s'.pc ∧ u'.rb = s'.rb ∧ u'.inq = s'.inq ∧ u'.status = s'.status

/-- Reserving more memory changes nothing for a step that raises no fault: stepping and then growing is growing and then
stepping (R57, R240). -/
def Obligations.GrowthIsInvisibleWithoutFault : Prop :=
  ∀ (capMax c : Nat) (s t : State), Consistent capMax s → step s = .next t → t.NoFault →
    step (growTo c s) = .next (growTo c t)

/-! ### Host commands -/

/-- LOAD(P, I): within CAP_MAX it gives every item its value, M[a] = P[a], from every state; beyond it is refused and
nothing changes. That it is accepted in every status is the spec's decision D27. -/
def Obligations.LoadRule : Prop :=
  ∀ (capMax : Nat) (image input : List Word) (s : State),
    (image.length ≤ capMax → ∃ t, load capMax image input s = (t, .ok) ∧
      t.cap = image.length ∧ (∀ (a : Nat) (h : a < image.length), memRead a t = .ok image[a]) ∧
      t.pc = 0 ∧ t.rb = 0 ∧ t.inq = input ∧ t.log = [] ∧ t.suspend = false ∧ t.status = .ready ∧ t.fcause = none ∧
      t.mem.wf = true) ∧
    (capMax < image.length → load capMax image input s = (s, .refused .capacityExceeded))

/-- RESERVE(c): refused beyond CAP_MAX; otherwise CAP becomes max(CAP, c), cells already present keep their values, new
cells hold 0, and nothing else changes. That it is accepted in every status is the spec's decision D23. -/
def Obligations.ReserveRule : Prop :=
  ∀ (capMax c : Nat) (s : State),
    (capMax < c → reserve capMax c s = (s, .refused .capacityExceeded)) ∧
    (c ≤ capMax → ∃ t, reserve capMax c s = (t, .ok) ∧ t = { s with mem := t.mem, cap := max s.cap c } ∧
      (∀ a : Int, a < s.cap → memRead a t = memRead a s) ∧
      (∀ a : Int, s.cap ≤ a → a < c → memRead a t = .ok 0) ∧ (s.mem.wf = true → t.mem.wf = true))

/-- ENABLE_SUSPEND sets SUSPEND, PUSH_INPUT appends to INQ, READ_OUTPUT_LOG answers LOG, READ_MEM answers the cell or
refuses a bad address, each in every status and each changing nothing else. The statuses they are accepted in, and
READ_MEM's refusal, are the spec's decisions D24, D25 and D26. -/
def Obligations.FeedAndInspectRules : Prop :=
  ∀ (capMax fuel : Nat) (s : State) (v : Word) (a : Int),
    command capMax fuel .enableSuspend s = some ({ s with suspend := true }, .ok) ∧
    command capMax fuel (.pushInput v) s = some ({ s with inq := s.inq ++ [v] }, .ok) ∧
    command capMax fuel .readOutputLog s = some (s, .outputs s.log) ∧
    (0 ≤ a → a < s.cap → command capMax fuel (.readMem a) s = some (s, .value (s.mem.read a.toNat))) ∧
    (a < 0 ∨ (s.cap : Int) ≤ a → command capMax fuel (.readMem a) s = some (s, .refused .badAddress))

/-- STEP's Signal tells STATUS: Stepped with READY, Output with SUSPENDED, Halted with HALTED, Fault(c), c in 1 to 4, with
FAULTED and FCAUSE = c; and no STEP of a consistent instance leaves RUNNING. The Signals and codes are the spec's
decisions D13, D14, D21 and D22. -/
def Obligations.StepSignals : Prop :=
  ∀ (capMax : Nat) (s t : State) (sig : Signal), Consistent capMax s → stepCommand s = (t, sig) →
    step s = .next t ∧
    (sig = .stepped ↔ t.status = .ready) ∧ (sig = .halted ↔ t.status = .halted) ∧
    (∀ v, sig = .output v → t.status = .suspended ∧ ∃ l, t.log = l ++ [v]) ∧
    (∀ c, sig = .fault c → t.status = .faulted ∧ c ∈ [1, 2, 3, 4] ∧ fcauseCode t.fcause = c) ∧ t.status ≠ .running

/-- RUN is the iteration of STEP (R197): it returns what the first STEP returned when that is Halted, Fault(c), or
Output(v) with SUSPEND = 1, and otherwise goes round again. Its answers in HALTED and FAULTED are the spec's decision
D20. -/
def Obligations.RunIteratesStep : Prop :=
  ∀ s t : State, ∀ sig : Signal, RunReturns s t sig ↔
    ((stepCommand s).2 = .halted ∨ (∃ c, (stepCommand s).2 = .fault c) ∨
        ((∃ v, (stepCommand s).2 = .output v) ∧ (stepCommand s).1.suspend = true)) ∧
      t = (stepCommand s).1 ∧ sig = (stepCommand s).2 ∨
    ¬ ((stepCommand s).2 = .halted ∨ (∃ c, (stepCommand s).2 = .fault c) ∨
        ((∃ v, (stepCommand s).2 = .output v) ∧ (stepCommand s).1.suspend = true)) ∧
      RunReturns (stepCommand s).1 t sig

/-- RUN returns at most one state and Signal; never Stepped, and Output only with SUSPEND = 1; and what it leaves is
reached by steps of the machine (R191, R197). -/
def Obligations.RunResultsUniqueAndReached : Prop :=
  ∀ s t : State, ∀ sig : Signal, RunReturns s t sig →
    (∀ t' sig', RunReturns s t' sig' → t' = t ∧ sig' = sig) ∧ sig ≠ .stepped ∧
    (∀ v, sig = .output v → s.suspend = true) ∧ ∃ n, Host.Core.run core n s = .next t

/-- RUN need not return: at a jump to itself it has no result whatever (R202). -/
def Obligations.SelfJumpNeverReturns : Prop :=
  ∀ (s : State) (v : Word), s.Accepting → v.toInt = s.pc →
    fetch s = .ok (.jz (.immediate 0) (.immediate v)) ∨ fetch s = .ok (.jnz (.immediate 1) (.immediate v)) →
    ∀ t sig, ¬ RunReturns s t sig

/-- Between two LOADs CAP never shrinks, LOG only grows at its end, and SUSPEND is never cleared (R22, R26, R27, R198). -/
def Obligations.GrowsBetweenLoads : Prop :=
  ∀ (capMax : Nat) (s t : State) (cs : List Command) (rs : List Response), NoLoad cs → Session capMax s cs rs t →
    s.cap ≤ t.cap ∧ (∃ l, t.log = s.log ++ l) ∧ (s.suspend = true → t.suspend = true)

/-- STATUS after each command (R200): RESERVE, ENABLE_SUSPEND, PUSH_INPUT and the reads leave it; LOAD, if not refused,
leaves READY; STEP and RUN leave HALTED and FAULTED; a RUN that returns leaves SUSPENDED only with SUSPEND = 1, and never
READY or RUNNING. -/
def Obligations.StatusTransitions : Prop :=
  ∀ (capMax : Nat) (c : Command) (s t : State) (r : Response), Answers capMax c s t r →
    match c with
    | .load _ _ => r = .ok → t.status = .ready
    | .reserve _ | .enableSuspend | .pushInput _ | .readOutputLog | .readMem _ => t.status = s.status
    | .step => (s.status = .halted ∨ s.status = .faulted → t.status = s.status) ∧ t.status ≠ .running
    | .run => (s.status = .halted ∨ s.status = .faulted → t.status = s.status) ∧
        (t.status = .suspended ∧ s.suspend = true ∨ t.status = .halted ∨ t.status = .faulted)

/-- A command to one instance leaves every other instance as it was, and answers as it would alone: nothing is shared
(R67). -/
def Obligations.InstancesShareNothing : Prop :=
  ∀ (capMax k : Nat) (c : Command) (before after : Instances) (r : Response), AnswersAt capMax k c before after r →
    after.length = before.length ∧ (∀ j, j ≠ k → after[j]? = before[j]?) ∧
    ∃ s t, before[k]? = some s ∧ after[k]? = some t ∧ Answers capMax c s t r
end

