-- ==== Sys2Proof/Laws/Memory.lean ====
section
/-! SUPPORT. Memory: what a read gives after each operation, and that every operation keeps the canonical form and the
bound on listed addresses. -/

namespace Sys2Proof.Machine

@[simp] theorem Memory.read_nil (a : Nat) : Memory.read [] a = 0 := rfl

theorem Memory.read_cons (b : Nat) (u : Word) (m : Memory) (a : Nat) :
    Memory.read ((b, u) :: m) a = if a = b then u else m.read a := rfl

theorem Memory.wf_cons {a : Nat} {v : Word} {m : Memory} :
    Memory.wf ((a, v) :: m) = true ↔ v ≠ 0 ∧ (∀ c ∈ m, a < c.1) ∧ m.wf = true := by
  simp only [Memory.wf, Bool.and_eq_true, decide_eq_true_iff, List.all_eq_true, and_assoc]
  exact Iff.rfl

theorem Memory.below_iff {n : Nat} {m : Memory} : m.below n = true ↔ ∀ c ∈ m, c.1 < n := by
  simp [Memory.below]

/-- An address none of the listed cells has reads as 0. -/
theorem Memory.read_unlisted {m : Memory} {a : Nat} (h : ∀ c ∈ m, c.1 ≠ a) : m.read a = 0 := by
  induction m with
  | nil => rfl
  | cons c m ih =>
    obtain ⟨b, u⟩ := c
    rw [Memory.read_cons, if_neg (fun e => h (b, u) (by simp) e.symm)]
    exact ih (fun c hc => h c (by simp [hc]))

/-- The cells of a write are old cells and the written one. -/
theorem Memory.mem_write {m : Memory} {a : Nat} {v : Word} {c : Cell} (h : c ∈ m.write a v) :
    c ∈ m ∨ c = (a, v) := by
  induction m with
  | nil => simp only [Memory.write] at h; split at h <;> simp_all
  | cons d m ih =>
    obtain ⟨b, u⟩ := d
    simp only [Memory.write] at h
    split at h
    · split at h
      · exact .inl h
      · rcases List.mem_cons.mp h with h | h
        · exact .inr h
        · exact .inl h
    · split at h
      · split at h
        · exact .inl (List.mem_cons_of_mem _ h)
        · rcases List.mem_cons.mp h with h | h
          · exact .inr h
          · exact .inl (List.mem_cons_of_mem _ h)
      · rcases List.mem_cons.mp h with h | h
        · simp [h]
        · rcases ih h with h | h <;> simp [h]

theorem Memory.read_write_same {m : Memory} (hm : m.wf = true) (a : Nat) (v : Word) : (m.write a v).read a = v := by
  induction m with
  | nil => simp only [Memory.write]; split <;> simp_all [Memory.read_cons, unlistedCell]
  | cons d m ih =>
    obtain ⟨b, u⟩ := d
    obtain ⟨hu, hlt, hm⟩ := Memory.wf_cons.mp hm
    simp only [Memory.write]
    split
    · rename_i hab
      split
      · rename_i hv
        rw [show v = 0 from hv]
        apply Memory.read_unlisted
        intro c hc
        rcases List.mem_cons.mp hc with rfl | hc
        · simp; omega
        · have := hlt c hc; omega
      · simp [Memory.read_cons]
    · split
      · rename_i hab
        subst hab
        split
        · rename_i hv
          rw [show v = 0 from hv]
          exact Memory.read_unlisted (fun c hc => by have := hlt c hc; omega)
        · simp [Memory.read_cons]
      · rename_i hab
        rw [Memory.read_cons, if_neg hab]
        exact ih hm

theorem Memory.read_write_other {m : Memory} {a d : Nat} (h : a ≠ d) (v : Word) :
    (m.write d v).read a = m.read a := by
  induction m with
  | nil => simp only [Memory.write]; split <;> simp [Memory.read_cons, h]
  | cons c m ih =>
    obtain ⟨b, u⟩ := c
    simp only [Memory.write]
    split
    · split <;> simp [Memory.read_cons, h]
    · split
      · rename_i hdb
        subst hdb
        split <;> simp [Memory.read_cons, h]
      · simp [Memory.read_cons, ih]

/-- A write keeps the canonical form. -/
theorem Memory.wf_write {m : Memory} (hm : m.wf = true) (a : Nat) (v : Word) : (m.write a v).wf = true := by
  induction m with
  | nil => simp only [Memory.write]; split <;> simp_all [Memory.wf]
  | cons d m ih =>
    obtain ⟨b, u⟩ := d
    have hbm := hm
    obtain ⟨hu, hlt, hm'⟩ := Memory.wf_cons.mp hm
    simp only [Memory.write]
    split
    · rename_i hab
      split
      · exact hbm
      · rename_i hv
        refine Memory.wf_cons.mpr ⟨hv, fun c hc => ?_, hbm⟩
        rcases List.mem_cons.mp hc with rfl | hc
        · exact hab
        · have := hlt c hc; omega
    · split
      · rename_i hab
        subst hab
        split
        · exact hm'
        · rename_i hv
          exact Memory.wf_cons.mpr ⟨hv, hlt, hm'⟩
      · refine Memory.wf_cons.mpr ⟨hu, fun c hc => ?_, ih hm'⟩
        rcases Memory.mem_write hc with hc | rfl
        · exact hlt c hc
        · simp; omega

/-- A write below `n` lists no cell at or above `n`. -/
theorem Memory.below_write {m : Memory} {n a : Nat} (hm : m.below n = true) (ha : a < n) (v : Word) :
    (m.write a v).below n = true := by
  rw [Memory.below_iff] at *
  intro c hc
  rcases Memory.mem_write hc with hc | rfl
  · exact hm c hc
  · exact ha

theorem Memory.mem_image {vs : List Word} {a : Nat} {c : Cell} (h : c ∈ Memory.image a vs) :
    a ≤ c.1 ∧ c.1 < a + vs.length := by
  induction vs generalizing a with
  | nil => simp [Memory.image] at h
  | cons v vs ih =>
    simp only [Memory.image] at h
    split at h
    · have := ih h; simp; omega
    · rcases List.mem_cons.mp h with rfl | h
      · simp
      · have := ih h; simp; omega

/-- An image is in canonical form. -/
theorem Memory.wf_image (vs : List Word) (a : Nat) : (Memory.image a vs).wf = true := by
  induction vs generalizing a with
  | nil => rfl
  | cons v vs ih =>
    simp only [Memory.image]
    split
    · exact ih _
    · rename_i hv
      exact Memory.wf_cons.mpr ⟨hv, fun c hc => by have := Memory.mem_image hc; omega, ih _⟩

/-- An image holds its values in order. -/
theorem Memory.read_image (vs : List Word) (a k : Nat) (h : k < vs.length) :
    (Memory.image a vs).read (a + k) = vs[k] := by
  induction vs generalizing a k with
  | nil => simp at h
  | cons v vs ih =>
    simp only [Memory.image]
    cases k with
    | zero =>
      split
      · rename_i hv
        rw [Memory.read_unlisted (fun c hc => by have := Memory.mem_image hc; omega)]
        simp [hv, unlistedCell]
      · simp [Memory.read_cons]
    | succ k =>
      have e : a + (k + 1) = a + 1 + k := by omega
      have hk : k < vs.length := by simpa using h
      split
      · rw [e, ih _ _ hk]; simp
      · rw [Memory.read_cons, if_neg (by omega), e, ih _ _ hk]; simp

theorem Memory.wf_keepBelow {m : Memory} (hm : m.wf = true) (n : Nat) : (m.keepBelow n).wf = true := by
  induction m with
  | nil => rfl
  | cons c m ih =>
    obtain ⟨b, u⟩ := c
    obtain ⟨hu, hlt, hm⟩ := Memory.wf_cons.mp hm
    simp only [Memory.keepBelow, List.filter_cons] at *
    split
    · exact Memory.wf_cons.mpr ⟨hu, fun c hc => hlt c (List.mem_filter.mp hc).1, ih hm⟩
    · exact ih hm

/-- Growing keeps the values below the old capacity. -/
theorem Memory.read_keepBelow_lt (m : Memory) {n a : Nat} (h : a < n) : (m.keepBelow n).read a = m.read a := by
  induction m with
  | nil => rfl
  | cons c m ih =>
    obtain ⟨b, u⟩ := c
    simp only [Memory.keepBelow, List.filter_cons] at *
    split
    · simp [Memory.read_cons, ih]
    · rename_i hb
      simp only [decide_eq_true_eq] at hb
      rw [Memory.read_cons, if_neg (by omega), ih]

/-- Growing makes the new cells 0. -/
theorem Memory.read_keepBelow_ge (m : Memory) {n a : Nat} (h : n ≤ a) : (m.keepBelow n).read a = 0 := by
  apply Memory.read_unlisted
  intro c hc
  have := (List.mem_filter.mp hc).2
  simp only [decide_eq_true_eq] at this
  omega

theorem Memory.below_keepBelow (m : Memory) {n c : Nat} (h : n ≤ c) : (m.keepBelow n).below c = true := by
  rw [Memory.below_iff]
  intro d hd
  have := (List.mem_filter.mp hd).2
  simp only [decide_eq_true_eq] at this
  omega

/-- Where no cell is listed at or above `n`, nothing is dropped. -/
theorem Memory.keepBelow_of_below {m : Memory} {n : Nat} (h : m.below n = true) : m.keepBelow n = m := by
  rw [Memory.below_iff] at h
  exact List.filter_eq_self.mpr (fun c hc => by simp [h c hc])

theorem Memory.below_mono {m : Memory} {n c : Nat} (h : m.below n = true) (hn : n ≤ c) : m.below c = true := by
  rw [Memory.below_iff] at *
  exact fun d hd => Nat.lt_of_lt_of_le (h d hd) hn

end Sys2Proof.Machine
end

