-- ==== Sys2Proof/Laws/State.lean ====
section
/-! SUPPORT. One lemma per field of State per update, so that no later proof unfolds a record update. -/

namespace Sys2Proof.Machine

@[simp] theorem State.setMem_mem (s : State) (m : Memory) : (s.setMem m).mem = m := rfl
@[simp] theorem State.setMem_cap (s : State) (m : Memory) : (s.setMem m).cap = s.cap := rfl
@[simp] theorem State.setMem_pc (s : State) (m : Memory) : (s.setMem m).pc = s.pc := rfl
@[simp] theorem State.setMem_rb (s : State) (m : Memory) : (s.setMem m).rb = s.rb := rfl
@[simp] theorem State.setMem_inq (s : State) (m : Memory) : (s.setMem m).inq = s.inq := rfl
@[simp] theorem State.setMem_log (s : State) (m : Memory) : (s.setMem m).log = s.log := rfl
@[simp] theorem State.setMem_suspend (s : State) (m : Memory) : (s.setMem m).suspend = s.suspend := rfl
@[simp] theorem State.setMem_status (s : State) (m : Memory) : (s.setMem m).status = s.status := rfl
@[simp] theorem State.setMem_fcause (s : State) (m : Memory) : (s.setMem m).fcause = s.fcause := rfl

@[simp] theorem State.setCap_mem (s : State) (n : Nat) : (s.setCap n).mem = s.mem := rfl
@[simp] theorem State.setCap_cap (s : State) (n : Nat) : (s.setCap n).cap = n := rfl
@[simp] theorem State.setCap_pc (s : State) (n : Nat) : (s.setCap n).pc = s.pc := rfl
@[simp] theorem State.setCap_rb (s : State) (n : Nat) : (s.setCap n).rb = s.rb := rfl
@[simp] theorem State.setCap_inq (s : State) (n : Nat) : (s.setCap n).inq = s.inq := rfl
@[simp] theorem State.setCap_log (s : State) (n : Nat) : (s.setCap n).log = s.log := rfl
@[simp] theorem State.setCap_suspend (s : State) (n : Nat) : (s.setCap n).suspend = s.suspend := rfl
@[simp] theorem State.setCap_status (s : State) (n : Nat) : (s.setCap n).status = s.status := rfl
@[simp] theorem State.setCap_fcause (s : State) (n : Nat) : (s.setCap n).fcause = s.fcause := rfl

@[simp] theorem State.setPc_mem (s : State) (n : Nat) : (s.setPc n).mem = s.mem := rfl
@[simp] theorem State.setPc_cap (s : State) (n : Nat) : (s.setPc n).cap = s.cap := rfl
@[simp] theorem State.setPc_pc (s : State) (n : Nat) : (s.setPc n).pc = n := rfl
@[simp] theorem State.setPc_rb (s : State) (n : Nat) : (s.setPc n).rb = s.rb := rfl
@[simp] theorem State.setPc_inq (s : State) (n : Nat) : (s.setPc n).inq = s.inq := rfl
@[simp] theorem State.setPc_log (s : State) (n : Nat) : (s.setPc n).log = s.log := rfl
@[simp] theorem State.setPc_suspend (s : State) (n : Nat) : (s.setPc n).suspend = s.suspend := rfl
@[simp] theorem State.setPc_status (s : State) (n : Nat) : (s.setPc n).status = s.status := rfl
@[simp] theorem State.setPc_fcause (s : State) (n : Nat) : (s.setPc n).fcause = s.fcause := rfl

@[simp] theorem State.setRb_mem (s : State) (v : Word) : (s.setRb v).mem = s.mem := rfl
@[simp] theorem State.setRb_cap (s : State) (v : Word) : (s.setRb v).cap = s.cap := rfl
@[simp] theorem State.setRb_pc (s : State) (v : Word) : (s.setRb v).pc = s.pc := rfl
@[simp] theorem State.setRb_rb (s : State) (v : Word) : (s.setRb v).rb = v := rfl
@[simp] theorem State.setRb_inq (s : State) (v : Word) : (s.setRb v).inq = s.inq := rfl
@[simp] theorem State.setRb_log (s : State) (v : Word) : (s.setRb v).log = s.log := rfl
@[simp] theorem State.setRb_suspend (s : State) (v : Word) : (s.setRb v).suspend = s.suspend := rfl
@[simp] theorem State.setRb_status (s : State) (v : Word) : (s.setRb v).status = s.status := rfl
@[simp] theorem State.setRb_fcause (s : State) (v : Word) : (s.setRb v).fcause = s.fcause := rfl

@[simp] theorem State.setInq_mem (s : State) (q : List Word) : (s.setInq q).mem = s.mem := rfl
@[simp] theorem State.setInq_cap (s : State) (q : List Word) : (s.setInq q).cap = s.cap := rfl
@[simp] theorem State.setInq_pc (s : State) (q : List Word) : (s.setInq q).pc = s.pc := rfl
@[simp] theorem State.setInq_rb (s : State) (q : List Word) : (s.setInq q).rb = s.rb := rfl
@[simp] theorem State.setInq_inq (s : State) (q : List Word) : (s.setInq q).inq = q := rfl
@[simp] theorem State.setInq_log (s : State) (q : List Word) : (s.setInq q).log = s.log := rfl
@[simp] theorem State.setInq_suspend (s : State) (q : List Word) : (s.setInq q).suspend = s.suspend := rfl
@[simp] theorem State.setInq_status (s : State) (q : List Word) : (s.setInq q).status = s.status := rfl
@[simp] theorem State.setInq_fcause (s : State) (q : List Word) : (s.setInq q).fcause = s.fcause := rfl

@[simp] theorem State.setLog_mem (s : State) (l : List Word) : (s.setLog l).mem = s.mem := rfl
@[simp] theorem State.setLog_cap (s : State) (l : List Word) : (s.setLog l).cap = s.cap := rfl
@[simp] theorem State.setLog_pc (s : State) (l : List Word) : (s.setLog l).pc = s.pc := rfl
@[simp] theorem State.setLog_rb (s : State) (l : List Word) : (s.setLog l).rb = s.rb := rfl
@[simp] theorem State.setLog_inq (s : State) (l : List Word) : (s.setLog l).inq = s.inq := rfl
@[simp] theorem State.setLog_log (s : State) (l : List Word) : (s.setLog l).log = l := rfl
@[simp] theorem State.setLog_suspend (s : State) (l : List Word) : (s.setLog l).suspend = s.suspend := rfl
@[simp] theorem State.setLog_status (s : State) (l : List Word) : (s.setLog l).status = s.status := rfl
@[simp] theorem State.setLog_fcause (s : State) (l : List Word) : (s.setLog l).fcause = s.fcause := rfl

@[simp] theorem State.setSuspend_mem (s : State) (b : Bool) : (s.setSuspend b).mem = s.mem := rfl
@[simp] theorem State.setSuspend_cap (s : State) (b : Bool) : (s.setSuspend b).cap = s.cap := rfl
@[simp] theorem State.setSuspend_pc (s : State) (b : Bool) : (s.setSuspend b).pc = s.pc := rfl
@[simp] theorem State.setSuspend_rb (s : State) (b : Bool) : (s.setSuspend b).rb = s.rb := rfl
@[simp] theorem State.setSuspend_inq (s : State) (b : Bool) : (s.setSuspend b).inq = s.inq := rfl
@[simp] theorem State.setSuspend_log (s : State) (b : Bool) : (s.setSuspend b).log = s.log := rfl
@[simp] theorem State.setSuspend_suspend (s : State) (b : Bool) : (s.setSuspend b).suspend = b := rfl
@[simp] theorem State.setSuspend_status (s : State) (b : Bool) : (s.setSuspend b).status = s.status := rfl
@[simp] theorem State.setSuspend_fcause (s : State) (b : Bool) : (s.setSuspend b).fcause = s.fcause := rfl

@[simp] theorem State.setStatus_mem (s : State) (st : Status) : (s.setStatus st).mem = s.mem := rfl
@[simp] theorem State.setStatus_cap (s : State) (st : Status) : (s.setStatus st).cap = s.cap := rfl
@[simp] theorem State.setStatus_pc (s : State) (st : Status) : (s.setStatus st).pc = s.pc := rfl
@[simp] theorem State.setStatus_rb (s : State) (st : Status) : (s.setStatus st).rb = s.rb := rfl
@[simp] theorem State.setStatus_inq (s : State) (st : Status) : (s.setStatus st).inq = s.inq := rfl
@[simp] theorem State.setStatus_log (s : State) (st : Status) : (s.setStatus st).log = s.log := rfl
@[simp] theorem State.setStatus_suspend (s : State) (st : Status) : (s.setStatus st).suspend = s.suspend := rfl
@[simp] theorem State.setStatus_status (s : State) (st : Status) : (s.setStatus st).status = st := rfl
@[simp] theorem State.setStatus_fcause (s : State) (st : Status) : (s.setStatus st).fcause = s.fcause := rfl

@[simp] theorem State.setFcause_mem (s : State) (c : Option Fault) : (s.setFcause c).mem = s.mem := rfl
@[simp] theorem State.setFcause_cap (s : State) (c : Option Fault) : (s.setFcause c).cap = s.cap := rfl
@[simp] theorem State.setFcause_pc (s : State) (c : Option Fault) : (s.setFcause c).pc = s.pc := rfl
@[simp] theorem State.setFcause_rb (s : State) (c : Option Fault) : (s.setFcause c).rb = s.rb := rfl
@[simp] theorem State.setFcause_inq (s : State) (c : Option Fault) : (s.setFcause c).inq = s.inq := rfl
@[simp] theorem State.setFcause_log (s : State) (c : Option Fault) : (s.setFcause c).log = s.log := rfl
@[simp] theorem State.setFcause_suspend (s : State) (c : Option Fault) : (s.setFcause c).suspend = s.suspend := rfl
@[simp] theorem State.setFcause_status (s : State) (c : Option Fault) : (s.setFcause c).status = s.status := rfl
@[simp] theorem State.setFcause_fcause (s : State) (c : Option Fault) : (s.setFcause c).fcause = c := rfl

@[simp] theorem takeFault_mem (f : Fault) (s : State) : (takeFault f s).mem = s.mem := rfl
@[simp] theorem takeFault_cap (f : Fault) (s : State) : (takeFault f s).cap = s.cap := rfl
@[simp] theorem takeFault_pc (f : Fault) (s : State) : (takeFault f s).pc = s.pc := rfl
@[simp] theorem takeFault_rb (f : Fault) (s : State) : (takeFault f s).rb = s.rb := rfl
@[simp] theorem takeFault_inq (f : Fault) (s : State) : (takeFault f s).inq = s.inq := rfl
@[simp] theorem takeFault_log (f : Fault) (s : State) : (takeFault f s).log = s.log := rfl
@[simp] theorem takeFault_suspend (f : Fault) (s : State) : (takeFault f s).suspend = s.suspend := rfl
@[simp] theorem takeFault_status (f : Fault) (s : State) : (takeFault f s).status = .faulted := rfl
@[simp] theorem takeFault_fcause (f : Fault) (s : State) : (takeFault f s).fcause = some f := rfl

@[simp] theorem beginStep_mem (s : State) : (beginStep s).mem = s.mem := rfl
@[simp] theorem beginStep_cap (s : State) : (beginStep s).cap = s.cap := rfl
@[simp] theorem beginStep_pc (s : State) : (beginStep s).pc = s.pc := rfl
@[simp] theorem beginStep_rb (s : State) : (beginStep s).rb = s.rb := rfl
@[simp] theorem beginStep_inq (s : State) : (beginStep s).inq = s.inq := rfl
@[simp] theorem beginStep_log (s : State) : (beginStep s).log = s.log := rfl
@[simp] theorem beginStep_suspend (s : State) : (beginStep s).suspend = s.suspend := rfl
@[simp] theorem beginStep_status (s : State) : (beginStep s).status = .running := rfl
@[simp] theorem beginStep_fcause (s : State) : (beginStep s).fcause = s.fcause := rfl

@[simp] theorem advance_mem (n : Nat) (s : State) : (advance n s).mem = s.mem := rfl
@[simp] theorem advance_cap (n : Nat) (s : State) : (advance n s).cap = s.cap := rfl
@[simp] theorem advance_pc (n : Nat) (s : State) : (advance n s).pc = s.pc + (1 + n) := rfl
@[simp] theorem advance_rb (n : Nat) (s : State) : (advance n s).rb = s.rb := rfl
@[simp] theorem advance_inq (n : Nat) (s : State) : (advance n s).inq = s.inq := rfl
@[simp] theorem advance_log (n : Nat) (s : State) : (advance n s).log = s.log := rfl
@[simp] theorem advance_suspend (n : Nat) (s : State) : (advance n s).suspend = s.suspend := rfl
@[simp] theorem advance_status (n : Nat) (s : State) : (advance n s).status = s.status := rfl
@[simp] theorem advance_fcause (n : Nat) (s : State) : (advance n s).fcause = s.fcause := rfl

/-- Fault entry does not look at STATUS. -/
@[simp] theorem takeFault_setStatus (f : Fault) (s : State) (st : Status) :
    takeFault f (s.setStatus st) = takeFault f s := rfl

/-- Two states that agree in every item are one. -/
theorem State.ext_items {s t : State} (mem : s.mem = t.mem) (cap : s.cap = t.cap) (pc : s.pc = t.pc) (rb : s.rb = t.rb)
    (inq : s.inq = t.inq) (log : s.log = t.log) (suspend : s.suspend = t.suspend) (status : s.status = t.status)
    (fcause : s.fcause = t.fcause) : s = t := by
  cases s; cases t; simp_all

end Sys2Proof.Machine
end

