-- ==== Sys2Proof/Laws/Ops.lean ====
section
/-! SUPPORT. What each shared operation can do, said once. -/

namespace Sys2Proof.Machine

/-! ### The primitives -/

theorem memRead_of_hasCell {s : State} {addr : Int} (h : s.HasCell addr) :
    memRead addr s = .ok (s.mem.read addr.toNat) := if_pos h

theorem memRead_of_not_hasCell {s : State} {addr : Int} (h : ¬ s.HasCell addr) :
    memRead addr s = .error .addressOutOfBounds := if_neg h

/-- A read answers the cell that exists, or AddressOutOfBounds. -/
theorem memRead_ok_iff {s : State} {addr : Int} {v : Word} :
    memRead addr s = .ok v ↔ s.HasCell addr ∧ v = s.mem.read addr.toNat := by
  by_cases h : s.HasCell addr
  · rw [memRead_of_hasCell h]; exact ⟨fun e => ⟨h, by cases e; rfl⟩, fun e => by rw [e.2]⟩
  · rw [memRead_of_not_hasCell h]; simp [h]

/-- A read looks at memory and CAP only. -/
theorem memRead_congr {s t : State} (hm : t.mem = s.mem) (hc : t.cap = s.cap) (addr : Int) :
    memRead addr t = memRead addr s := by
  simp only [memRead, State.HasCell, hm, hc]

theorem memWrite_of_hasCell {s : State} {addr : Int} (h : s.HasCell addr) (v : Word) :
    memWrite addr v s = .ok (s.setMem (s.mem.write addr.toNat v)) := if_pos h

theorem memWrite_of_not_hasCell {s : State} {addr : Int} (h : ¬ s.HasCell addr) (v : Word) :
    memWrite addr v s = .error .addressOutOfBounds := if_neg h

/-- A write answers the state with that one cell written, if it exists. -/
theorem memWrite_ok_iff {s t : State} {addr : Int} {v : Word} :
    memWrite addr v s = .ok t ↔ s.HasCell addr ∧ t = s.setMem (s.mem.write addr.toNat v) := by
  by_cases h : s.HasCell addr
  · rw [memWrite_of_hasCell h]; exact ⟨fun e => ⟨h, by cases e; rfl⟩, fun e => by rw [e.2]⟩
  · rw [memWrite_of_not_hasCell h]; simp [h]

/-- A write of one cell leaves every other address as it was. -/
theorem memRead_after_write_other {s : State} {d a : Int} (hd : s.HasCell d) (h : a ≠ d) (v : Word) :
    memRead a (s.setMem (s.mem.write d.toNat v)) = memRead a s := by
  by_cases ha : s.HasCell a
  · rw [memRead_of_hasCell ha, memRead_of_hasCell (by simpa [State.HasCell] using ha)]
    simp only [State.setMem_mem]
    rw [Memory.read_write_other]
    obtain ⟨_, _⟩ := hd
    obtain ⟨_, _⟩ := ha
    omega
  · rw [memRead_of_not_hasCell ha, memRead_of_not_hasCell (by simpa [State.HasCell] using ha)]

/-! ### The operand resolver -/

/-- The address of a parameter depends on `rb` alone. -/
theorem effectiveAddress_congr {s t : State} (h : t.rb = s.rb) (p : Param) :
    effectiveAddress t p = effectiveAddress s p := by
  cases p <;> simp [effectiveAddress, h]

theorem readParam_of_readable {p : Param} {s : State} (h : Readable p s) : readParam p s = .ok (operandValue p s) := by
  unfold readParam operandValue
  cases e : effectiveAddress s p with
  | none => rfl
  | some addr => exact memRead_of_hasCell (h addr e)

theorem readParam_of_not_readable {p : Param} {s : State} (h : ¬ Readable p s) :
    readParam p s = .error .addressOutOfBounds := by
  unfold readParam
  cases e : effectiveAddress s p with
  | none => exact absurd (fun addr ha => by simp [e] at ha) h
  | some addr =>
    refine memRead_of_not_hasCell (fun hc => h (fun a ha => ?_))
    rw [e] at ha
    cases ha
    exact hc

/-- A parameter reads as its value, or raises AddressOutOfBounds. -/
theorem readParam_cases (p : Param) (s : State) :
    Readable p s ∧ readParam p s = .ok (operandValue p s) ∨
      ¬ Readable p s ∧ readParam p s = .error .addressOutOfBounds := by
  by_cases h : Readable p s
  · exact .inl ⟨h, readParam_of_readable h⟩
  · exact .inr ⟨h, readParam_of_not_readable h⟩

/-- Everything a write of a parameter can do. -/
theorem writeParam_cases (p : Param) (v : Word) (s : State) :
    (∃ d, effectiveAddress s p = some d ∧ s.HasCell d ∧ writeParam p v s = .ok (s.setMem (s.mem.write d.toNat v))) ∨
    (∃ d, effectiveAddress s p = some d ∧ ¬ s.HasCell d ∧ writeParam p v s = .error .addressOutOfBounds) ∨
    (effectiveAddress s p = none ∧ writeParam p v s = .error .writeToImmediate) := by
  unfold writeParam
  cases e : effectiveAddress s p with
  | none => exact .inr (.inr ⟨rfl, rfl⟩)
  | some d =>
    by_cases h : s.HasCell d
    · exact .inl ⟨d, rfl, h, memWrite_of_hasCell h v⟩
    · exact .inr (.inl ⟨d, rfl, h, memWrite_of_not_hasCell h v⟩)

/-! ### The shapes of instructions -/

/-- Everything an F3 instruction can do. -/
theorem threeOperand_cases (f : Word → Word → Word) (a b out : Param) (s : State) :
    (∃ d, Readable a s ∧ Readable b s ∧ effectiveAddress s out = some d ∧ s.HasCell d ∧
      threeOperand f a b out s =
        .ok (advance 3 (s.setMem (s.mem.write d.toNat (f (operandValue a s) (operandValue b s)))), .noEvent)) ∨
    (¬ Readable a s ∧ threeOperand f a b out s = .error .addressOutOfBounds) ∨
    (Readable a s ∧ ¬ Readable b s ∧ threeOperand f a b out s = .error .addressOutOfBounds) ∨
    (∃ d, Readable a s ∧ Readable b s ∧ effectiveAddress s out = some d ∧ ¬ s.HasCell d ∧
      threeOperand f a b out s = .error .addressOutOfBounds) ∨
    (Readable a s ∧ Readable b s ∧ effectiveAddress s out = none ∧
      threeOperand f a b out s = .error .writeToImmediate) := by
  unfold threeOperand
  rcases readParam_cases a s with ⟨ha, ea⟩ | ⟨ha, ea⟩
  · rcases readParam_cases b s with ⟨hb, eb⟩ | ⟨hb, eb⟩
    · rcases writeParam_cases out (f (operandValue a s) (operandValue b s)) s with
        ⟨d, hd, hc, ew⟩ | ⟨d, hd, hc, ew⟩ | ⟨hd, ew⟩
      · exact .inl ⟨d, ha, hb, hd, hc, by simp only [ea, eb, bind, Except.bind, ew]; rfl⟩
      · exact .inr (.inr (.inr (.inl ⟨d, ha, hb, hd, hc, by simp only [ea, eb, bind, Except.bind, ew]⟩)))
      · exact .inr (.inr (.inr (.inr ⟨ha, hb, hd, by simp only [ea, eb, bind, Except.bind, ew]⟩)))
    · exact .inr (.inr (.inl ⟨ha, hb, by simp only [ea, eb]; rfl⟩))
  · exact .inr (.inl ⟨ha, by simp only [ea]; rfl⟩)

/-- Everything Input can do. -/
theorem takeInput_cases (out : Param) (s : State) :
    (∃ v rest d, s.inq = v :: rest ∧ effectiveAddress s out = some d ∧ s.HasCell d ∧
      takeInput out s = .ok (advance 1 ((s.setMem (s.mem.write d.toNat v)).setInq rest), .noEvent)) ∨
    (s.inq = [] ∧ takeInput out s = .error .inputUnderflow) ∨
    (∃ d, s.inq ≠ [] ∧ effectiveAddress s out = some d ∧ ¬ s.HasCell d ∧
      takeInput out s = .error .addressOutOfBounds) ∨
    (s.inq ≠ [] ∧ effectiveAddress s out = none ∧ takeInput out s = .error .writeToImmediate) := by
  unfold takeInput
  cases hq : s.inq with
  | nil => exact .inr (.inl ⟨rfl, rfl⟩)
  | cons v rest =>
    rcases writeParam_cases out v s with ⟨d, hd, hc, ew⟩ | ⟨d, hd, hc, ew⟩ | ⟨hd, ew⟩
    · exact .inl ⟨v, rest, d, rfl, hd, hc, by simp only [ew]; rfl⟩
    · exact .inr (.inr (.inl ⟨d, by simp, hd, hc, by simp only [ew]; rfl⟩))
    · exact .inr (.inr (.inr ⟨by simp, hd, by simp only [ew]; rfl⟩))

/-- Everything Output can do. -/
theorem giveOutput_cases (a : Param) (s : State) :
    (Readable a s ∧ giveOutput a s =
      .ok (advance 1 (s.setLog (s.log ++ [operandValue a s])), .output (operandValue a s))) ∨
    (¬ Readable a s ∧ giveOutput a s = .error .addressOutOfBounds) := by
  unfold giveOutput
  rcases readParam_cases a s with ⟨ha, ea⟩ | ⟨ha, ea⟩
  · exact .inl ⟨ha, by simp only [ea]; rfl⟩
  · exact .inr ⟨ha, by simp only [ea]; rfl⟩

/-- Everything a jump can do. -/
theorem conditionalJump_cases (test : Word → Bool) (a b : Param) (s : State) :
    (Readable a s ∧ test (operandValue a s) = false ∧ conditionalJump test a b s = .ok (advance 2 s, .noEvent)) ∨
    (Readable a s ∧ test (operandValue a s) = true ∧ Readable b s ∧ 0 ≤ (operandValue b s).toInt ∧
      conditionalJump test a b s = .ok (s.setPc (operandValue b s).toInt.toNat, .noEvent)) ∨
    (¬ Readable a s ∧ conditionalJump test a b s = .error .addressOutOfBounds) ∨
    (Readable a s ∧ test (operandValue a s) = true ∧ ¬ Readable b s ∧
      conditionalJump test a b s = .error .addressOutOfBounds) ∨
    (Readable a s ∧ test (operandValue a s) = true ∧ Readable b s ∧ (operandValue b s).toInt < 0 ∧
      conditionalJump test a b s = .error .addressOutOfBounds) := by
  unfold conditionalJump
  rcases readParam_cases a s with ⟨ha, ea⟩ | ⟨ha, ea⟩
  · cases ht : test (operandValue a s) with
    | false => exact .inl ⟨ha, rfl, by simp only [ea, bind, Except.bind, ht]; rfl⟩
    | true =>
      rcases readParam_cases b s with ⟨hb, eb⟩ | ⟨hb, eb⟩
      · by_cases hn : (operandValue b s).toInt < 0
        · exact .inr (.inr (.inr (.inr ⟨ha, rfl, hb, hn, by
            simp only [ea, eb, bind, Except.bind, ht, jumpTo, hn, if_true]⟩)))
        · exact .inr (.inl ⟨ha, rfl, hb, by omega, by
            simp only [ea, eb, bind, Except.bind, ht, jumpTo, hn, if_true, if_false]⟩)
      · exact .inr (.inr (.inr (.inl ⟨ha, rfl, hb, by simp only [ea, eb, bind, Except.bind, ht, if_true]⟩)))
  · exact .inr (.inr (.inl ⟨ha, by simp only [ea]; rfl⟩))

/-- Everything AdjustBase can do. -/
theorem adjustBase_cases (a : Param) (s : State) :
    (Readable a s ∧ adjustBase a s =
      .ok (advance 1 (s.setRb (wrap64 (s.rb.toInt + (operandValue a s).toInt))), .noEvent)) ∨
    (¬ Readable a s ∧ adjustBase a s = .error .addressOutOfBounds) := by
  unfold adjustBase
  rcases readParam_cases a s with ⟨ha, ea⟩ | ⟨ha, ea⟩
  · exact .inl ⟨ha, by simp only [ea]; rfl⟩
  · exact .inr ⟨ha, by simp only [ea]; rfl⟩

/-! ### The end of an instruction -/

theorem settle_ok (s t : State) (e : Event) : settle s (.ok (t, e)) = .next (t.setStatus e.status) := rfl

theorem settle_error (s : State) (f : Fault) : settle s (.error f) = .next (takeFault f s) := rfl

/-- What an instruction leaves: fault entry on the state it began in, or its own state with its event's STATUS. -/
theorem settle_next {s t : State} {r : Except Fault (State × Event)} (h : settle s r = .next t) :
    (∃ f, r = .error f ∧ t = takeFault f s) ∨ (∃ u e, r = .ok (u, e) ∧ t = u.setStatus e.status) := by
  match r with
  | .error f => exact .inl ⟨f, rfl, by simpa [settle] using h.symm⟩
  | .ok (u, e) => exact .inr ⟨u, e, rfl, by simpa [settle] using h.symm⟩

theorem event_status_ne_faulted (e : Event) : e.status ≠ .faulted := by cases e <;> simp [Event.status]

theorem event_status_ne_running (e : Event) : e.status ≠ .running := by cases e <;> simp [Event.status]

end Sys2Proof.Machine
end

