-- ==== Sys2Proof/Laws/PerInstr.lean ====
section
/-! SUPPORT. Facts about every instruction as syntax, one lemma per constructor. -/

namespace Sys2Proof

theorem Mode.digit_le_two (m : Mode) : m.digit ≤ 2 := by cases m <;> decide

namespace Laws.CanonicalWord

/-- The canonical instruction word lies in [1, 22208], names the opcode in its two low digits, has no digit the opcode
does not use, and is followed by one cell for each operand (`30_encoding.md` rules R81, R82, R97). -/
def Statement (i : Instr) : Prop :=
  1 ≤ i.word ∧ i.word ≤ 22208 ∧ i.word % 100 = i.opcode ∧ i.word < 10 ^ (2 + i.params.length) ∧
    (encode i).length = i.length

theorem three (op : Nat) (a b out : Param) (h1 : 1 ≤ op) (h8 : op ≤ 8) :
    1 ≤ op + modeDigits 1 [a, b, out] ∧ op + modeDigits 1 [a, b, out] ≤ 22208 ∧
      (op + modeDigits 1 [a, b, out]) % 100 = op ∧ op + modeDigits 1 [a, b, out] < 10 ^ (2 + 3) := by
  have ha := a.mode.digit_le_two
  have hb := b.mode.digit_le_two
  have hc := out.mode.digit_le_two
  simp only [modeDigits]
  omega

theorem two (op : Nat) (a b : Param) (h1 : 1 ≤ op) (h8 : op ≤ 8) :
    1 ≤ op + modeDigits 1 [a, b] ∧ op + modeDigits 1 [a, b] ≤ 22208 ∧
      (op + modeDigits 1 [a, b]) % 100 = op ∧ op + modeDigits 1 [a, b] < 10 ^ (2 + 2) := by
  have ha := a.mode.digit_le_two
  have hb := b.mode.digit_le_two
  simp only [modeDigits]
  omega

theorem one (op : Nat) (a : Param) (h1 : 1 ≤ op) (h9 : op ≤ 9) :
    1 ≤ op + modeDigits 1 [a] ∧ op + modeDigits 1 [a] ≤ 22208 ∧
      (op + modeDigits 1 [a]) % 100 = op ∧ op + modeDigits 1 [a] < 10 ^ (2 + 1) := by
  have ha := a.mode.digit_le_two
  simp only [modeDigits]
  omega

theorem add (a b out : Param) : Statement (.add a b out) := by
  obtain ⟨h1, h2, h3, h4⟩ := three 1 a b out (by omega) (by omega)
  exact ⟨h1, h2, h3, h4, rfl⟩

theorem mul (a b out : Param) : Statement (.mul a b out) := by
  obtain ⟨h1, h2, h3, h4⟩ := three 2 a b out (by omega) (by omega)
  exact ⟨h1, h2, h3, h4, rfl⟩

theorem input (out : Param) : Statement (.input out) := by
  obtain ⟨h1, h2, h3, h4⟩ := one 3 out (by omega) (by omega)
  exact ⟨h1, h2, h3, h4, rfl⟩

theorem output (a : Param) : Statement (.output a) := by
  obtain ⟨h1, h2, h3, h4⟩ := one 4 a (by omega) (by omega)
  exact ⟨h1, h2, h3, h4, rfl⟩

theorem jnz (a b : Param) : Statement (.jnz a b) := by
  obtain ⟨h1, h2, h3, h4⟩ := two 5 a b (by omega) (by omega)
  exact ⟨h1, h2, h3, h4, rfl⟩

theorem jz (a b : Param) : Statement (.jz a b) := by
  obtain ⟨h1, h2, h3, h4⟩ := two 6 a b (by omega) (by omega)
  exact ⟨h1, h2, h3, h4, rfl⟩

theorem lt (a b out : Param) : Statement (.lt a b out) := by
  obtain ⟨h1, h2, h3, h4⟩ := three 7 a b out (by omega) (by omega)
  exact ⟨h1, h2, h3, h4, rfl⟩

theorem eq (a b out : Param) : Statement (.eq a b out) := by
  obtain ⟨h1, h2, h3, h4⟩ := three 8 a b out (by omega) (by omega)
  exact ⟨h1, h2, h3, h4, rfl⟩

theorem arb (a : Param) : Statement (.arb a) := by
  obtain ⟨h1, h2, h3, h4⟩ := one 9 a (by omega) (by omega)
  exact ⟨h1, h2, h3, h4, rfl⟩

theorem hlt : Statement .hlt := by
  unfold Statement
  decide

end Laws.CanonicalWord

end Sys2Proof
end

