-- ==== Sys2Proof/Laws/Step.lean ====
section
/-! SUPPORT. What a fetch, an instruction and a step can do, said once. -/

namespace Sys2Proof.Machine

/-- What an instruction computes before it is settled. -/
def action (i : Instr) (s : State) : Except Fault (State × Event) :=
  match i with
  | .add a b out => threeOperand sumValue a b out s
  | .mul a b out => threeOperand productValue a b out s
  | .input out => takeInput out s
  | .output a => giveOutput a s
  | .jnz a b => conditionalJump nonzeroValue a b s
  | .jz a b => conditionalJump zeroValue a b s
  | .lt a b out => threeOperand lessValue a b out s
  | .eq a b out => threeOperand equalValue a b out s
  | .arb a => adjustBase a s
  | .hlt => .ok (advance 0 s, .halt)

/-- Every instruction settles its action. -/
theorem exec_eq_settle (i : Instr) (s : State) : exec i s = settle s (action i s) := by
  cases i <;> rfl

/-- What an instruction leaves: fault entry on the state it began in, or its action's own state with its event's STATUS. -/
theorem exec_next {i : Instr} {s t : State} (h : exec i s = .next t) :
    (∃ f, action i s = .error f ∧ t = takeFault f s) ∨
      (∃ u e, action i s = .ok (u, e) ∧ t = u.setStatus e.status) := by
  rw [exec_eq_settle] at h
  exact settle_next h

/-- How an action that completes changes the state: at most one cell, at the write parameter's address; at most one value
taken from INQ, added to LOG; rb by ARB alone; pc by its length, or to a jump's target. -/
theorem action_ok {i : Instr} {s u : State} {e : Event} (h : action i s = .ok (u, e)) :
    (∃ d out v, i.writeParam? = some out ∧ effectiveAddress s out = some d ∧ s.HasCell d ∧ e = .noEvent ∧
      (u = advance (i.length - 1) (s.setMem (s.mem.write d.toNat v)) ∧ (∀ o, i ≠ .input o) ∨
        ∃ rest, i = .input out ∧ s.inq = v :: rest ∧ u = advance 1 ((s.setMem (s.mem.write d.toNat v)).setInq rest))) ∨
    (∃ a, i = .output a ∧ e = .output (operandValue a s) ∧ u = advance 1 (s.setLog (s.log ++ [operandValue a s]))) ∨
    (∃ a b, (i = .jnz a b ∨ i = .jz a b) ∧ e = .noEvent ∧
      (u = advance 2 s ∨ 0 ≤ (operandValue b s).toInt ∧ u = s.setPc (operandValue b s).toInt.toNat)) ∨
    (∃ a, i = .arb a ∧ e = .noEvent ∧ u = advance 1 (s.setRb (wrap64 (s.rb.toInt + (operandValue a s).toInt)))) ∨
    (i = .hlt ∧ e = .halt ∧ u = advance 0 s) := by
  have three : ∀ (f : Word → Word → Word) (a b out : Param), threeOperand f a b out s = .ok (u, e) →
      ∃ d v, effectiveAddress s out = some d ∧ s.HasCell d ∧ e = .noEvent ∧
        u = advance 3 (s.setMem (s.mem.write d.toNat v)) := by
    intro f a b out h
    rcases threeOperand_cases f a b out s with ⟨d, _, _, hd, hc, r⟩ | ⟨_, r⟩ | ⟨_, _, r⟩ | ⟨_, _, _, _, _, r⟩ |
      ⟨_, _, _, r⟩ <;> rw [r] at h <;> cases h
    exact ⟨d, _, hd, hc, rfl, rfl⟩
  have jump : ∀ (test : Word → Bool) (a b : Param), conditionalJump test a b s = .ok (u, e) →
      e = .noEvent ∧ (u = advance 2 s ∨ 0 ≤ (operandValue b s).toInt ∧ u = s.setPc (operandValue b s).toInt.toNat) := by
    intro test a b h
    rcases conditionalJump_cases test a b s with ⟨_, _, r⟩ | ⟨_, _, _, hn, r⟩ | ⟨_, r⟩ | ⟨_, _, _, r⟩ |
      ⟨_, _, _, _, r⟩ <;> rw [r] at h <;> cases h
    · exact ⟨rfl, .inl rfl⟩
    · exact ⟨rfl, .inr ⟨hn, rfl⟩⟩
  cases i with
  | add a b out =>
    obtain ⟨d, v, hd, hc, he, hu⟩ := three _ _ _ _ h
    exact .inl ⟨d, out, v, rfl, hd, hc, he, .inl ⟨hu, by simp⟩⟩
  | mul a b out =>
    obtain ⟨d, v, hd, hc, he, hu⟩ := three _ _ _ _ h
    exact .inl ⟨d, out, v, rfl, hd, hc, he, .inl ⟨hu, by simp⟩⟩
  | lt a b out =>
    obtain ⟨d, v, hd, hc, he, hu⟩ := three _ _ _ _ h
    exact .inl ⟨d, out, v, rfl, hd, hc, he, .inl ⟨hu, by simp⟩⟩
  | eq a b out =>
    obtain ⟨d, v, hd, hc, he, hu⟩ := three _ _ _ _ h
    exact .inl ⟨d, out, v, rfl, hd, hc, he, .inl ⟨hu, by simp⟩⟩
  | input out =>
    have h : takeInput out s = .ok (u, e) := h
    rcases takeInput_cases out s with ⟨v, rest, d, hq, hd, hc, r⟩ | ⟨_, r⟩ | ⟨_, _, _, _, r⟩ | ⟨_, _, r⟩ <;>
      rw [r] at h <;> cases h
    exact .inl ⟨d, out, v, rfl, hd, hc, rfl, .inr ⟨rest, rfl, hq, rfl⟩⟩
  | output a =>
    have h : giveOutput a s = .ok (u, e) := h
    rcases giveOutput_cases a s with ⟨_, r⟩ | ⟨_, r⟩ <;> rw [r] at h <;> cases h
    exact .inr (.inl ⟨a, rfl, rfl, rfl⟩)
  | jnz a b =>
    obtain ⟨he, hu⟩ := jump _ _ _ h
    exact .inr (.inr (.inl ⟨a, b, .inl rfl, he, hu⟩))
  | jz a b =>
    obtain ⟨he, hu⟩ := jump _ _ _ h
    exact .inr (.inr (.inl ⟨a, b, .inr rfl, he, hu⟩))
  | arb a =>
    have h : adjustBase a s = .ok (u, e) := h
    rcases adjustBase_cases a s with ⟨_, r⟩ | ⟨_, r⟩ <;> rw [r] at h <;> cases h
    exact .inr (.inr (.inr (.inl ⟨a, rfl, rfl, rfl⟩)))
  | hlt =>
    have h : (Except.ok (advance 0 s, Event.halt) : Except Fault (State × Event)) = .ok (u, e) := h
    cases h
    exact .inr (.inr (.inr (.inr ⟨rfl, rfl, rfl⟩)))

/-- A fetch that answers an instruction decoded the word at pc and read its operand words after it. -/
theorem fetch_ok {s : State} {i : Instr} (h : fetch s = .ok i) :
    ∃ w hd, memRead s.pc s = .ok w ∧ decodeHead w = .ok hd ∧ fetchOperands hd s = .ok i := by
  unfold fetch at h
  cases e : memRead s.pc s with
  | error f => rw [e] at h; cases h
  | ok w =>
    rw [e] at h
    simp only [bind, Except.bind] at h
    cases ed : decodeHead w with
    | error r => rw [ed] at h; cases h
    | ok hd => rw [ed] at h; exact ⟨w, hd, rfl, ed, h⟩

/-- An instruction that is fetched lies below CAP with all its cells. -/
theorem fetch_bound {s : State} {i : Instr} (h : fetch s = .ok i) : s.pc + i.params.length < s.cap := by
  obtain ⟨w, hd, hw, _, hf⟩ := fetch_ok h
  have h0 := (memRead_ok_iff.mp hw).1.2
  cases hd with
  | f0 => cases hf; simp [Instr.params]; omega
  | f1 op m =>
    simp only [fetchOperands] at hf
    cases r1 : memRead (s.pc + 1) s with
    | error e => rw [r1] at hf; cases hf
    | ok v1 =>
      have h1 := (memRead_ok_iff.mp r1).1.2
      rw [r1] at hf
      cases hf
      cases op <;> simp [OpF1.instr, Instr.params] <;> omega
  | f2 op m1 m2 =>
    simp only [fetchOperands] at hf
    cases r1 : memRead (s.pc + 1) s with
    | error e => rw [r1] at hf; cases hf
    | ok v1 =>
      cases r2 : memRead (s.pc + 2) s with
      | error e => rw [r1, r2] at hf; cases hf
      | ok v2 =>
        have h2 := (memRead_ok_iff.mp r2).1.2
        rw [r1, r2] at hf
        cases hf
        cases op <;> simp [OpF2.instr, Instr.params] <;> omega
  | f3 op m1 m2 m3 =>
    simp only [fetchOperands] at hf
    cases r1 : memRead (s.pc + 1) s with
    | error e => rw [r1] at hf; cases hf
    | ok v1 =>
      cases r2 : memRead (s.pc + 2) s with
      | error e => rw [r1, r2] at hf; cases hf
      | ok v2 =>
        cases r3 : memRead (s.pc + 3) s with
        | error e => rw [r1, r2, r3] at hf; cases hf
        | ok v3 =>
          have h3 := (memRead_ok_iff.mp r3).1.2
          rw [r1, r2, r3] at hf
          cases hf
          cases op <;> simp [OpF3.instr, Instr.params] <;> omega

/-- A fetch does not look at STATUS. -/
theorem fetch_beginStep (s : State) : fetch (beginStep s) = fetch s := rfl

/-- Everything a step can do: nothing in HALTED and FAULTED, a fault of the fetch, or the instruction fetched. -/
theorem step_cases (s : State) :
    (s.status.terminal = true ∧ step s = .next s) ∨
    (s.status.terminal = false ∧ ∃ f, fetch s = .error f ∧ step s = .next (takeFault f s)) ∨
    (s.status.terminal = false ∧ ∃ i, fetch s = .ok i ∧ step s = exec i (beginStep s)) := by
  unfold step stepInstance execOne
  rw [fetch_beginStep]
  cases ht : s.status.terminal with
  | true => exact .inl ⟨rfl, by simp⟩
  | false =>
    cases hf : fetch s with
    | error f => exact .inr (.inl ⟨rfl, f, rfl, by simp; rfl⟩)
    | ok i => exact .inr (.inr ⟨rfl, i, rfl, by simp⟩)

theorem terminal_iff (st : Status) : st.terminal = true ↔ st = .halted ∨ st = .faulted := by
  cases st <;> simp [Status.terminal]

/-! ### Inductions over RUN and over sessions -/

/-- What every step keeps, a RUN that returns keeps. -/
theorem runFor_keeps {P : State → Prop} (hP : ∀ s, P s → P (afterStep s)) {n : Nat} {s t : State} {sig : Signal}
    (hs : P s) (h : runFor n s = some (t, sig)) : P t := by
  induction n generalizing s with
  | zero => cases h
  | succ n ih =>
    simp only [runFor] at h
    split at h
    · cases h
      exact hP s hs
    · exact ih (hP s hs) h

/-- What every command keeps, every session keeps. -/
theorem session_keeps {P : State → Prop} {capMax : Nat}
    (hP : ∀ c s t r, P s → Answers capMax c s t r → P t) {s t : State} {cs : List Command} {rs : List Response}
    (h : Session capMax s cs rs t) (hs : P s) : P t := by
  induction h with
  | done => exact hs
  | more ha _ ih => exact ih (hP _ _ _ _ hs ha)

end Sys2Proof.Machine
end

