-- ==== Sys2Proof/Tests/Slice0.lean ====
section
/-! SUPPORT. The model's own tests. Expected results come from `95_test_vectors.md` (its vector or example is named) or
from the rule named; `witness_...` theorems show that the hypotheses of a statement can be met, clause by clause. -/

namespace Sys2Proof.Machine.Tests

/-- The state LOAD gives (R192). -/
def boot (image : List Word) (input : List Word := []) : State := loadedState image input

/-- The same with `rb` set: the "rb0 = n" of `95_test_vectors.md`. -/
def bootRb (rb : Word) (image : List Word) (input : List Word := []) : State := { loadedState image input with rb := rb }

/-- The next state, as data. -/
def nextOf : Host.Outcome State Fault Refusal → Option State
  | .next t => some t
  | .fault _ => none
  | .refused _ => none

/-- A fault taken in `s` with code `c` and nothing else changed ("unchanged" of `95_test_vectors.md`). -/
def faultsWith (c : Nat) (s : State) : Bool :=
  match nextOf (step s) with
  | some t => decide (t.status = .faulted ∧ fcauseCode t.fcause = c ∧ { t with status := s.status, fcause := s.fcause } = s)
  | none => false

/-- Cell `a` and pc after one step. -/
def cellAndPc (a : Nat) (s : State) : Option (Word × Nat × Status) :=
  (nextOf (step s)).map (fun t => (t.mem.read a, t.pc, t.status))

/-! ### Well-formedness: one ill-formed term for the one check, at each instruction with a write target (R85) -/
theorem test_ill_formed_add : Instr.wellFormed (.add (.position 0) (.position 0) (.immediate 0)) = false := by decide
theorem test_ill_formed_mul : Instr.wellFormed (.mul (.position 0) (.position 0) (.immediate 0)) = false := by decide
theorem test_ill_formed_lt : Instr.wellFormed (.lt (.position 0) (.position 0) (.immediate 0)) = false := by decide
theorem test_ill_formed_eq : Instr.wellFormed (.eq (.position 0) (.position 0) (.immediate 0)) = false := by decide
theorem test_ill_formed_input : Instr.wellFormed (.input (.immediate 0)) = false := by decide
theorem test_well_formed_add : Instr.wellFormed (.add (.immediate 1) (.immediate 1) (.relative 0)) = true := by decide

/-! ### Decoding: a word written out for each instruction (R81, R83, R86), and words that are none -/
theorem test_decode_add : (decode [1, 5, 6, 7]).toOption = some (.add (.position 5) (.position 6) (.position 7), []) := by decide
theorem test_decode_mul : (decode [1002, 4, 3, 4]).toOption = some (.mul (.position 4) (.immediate 3) (.position 4), []) := by decide
theorem test_decode_input : (decode [203, 2]).toOption = some (.input (.relative 2), []) := by decide
theorem test_decode_output : (decode [104, -17]).toOption = some (.output (.immediate (-17)), []) := by decide
theorem test_decode_jnz : (decode [1105, 1, 7]).toOption = some (.jnz (.immediate 1) (.immediate 7), []) := by decide
theorem test_decode_jz : (decode [1006, 15, 14]).toOption = some (.jz (.position 15) (.immediate 14), []) := by decide
theorem test_decode_lt : (decode [1107, 3, 8, 5]).toOption = some (.lt (.immediate 3) (.immediate 8) (.position 5), []) := by decide
theorem test_decode_eq : (decode [1008, 23, 0, 25]).toOption = some (.eq (.position 23) (.immediate 0) (.position 25), []) := by decide
theorem test_decode_arb : (decode [209, 1]).toOption = some (.arb (.relative 1), []) := by decide
theorem test_decode_hlt : (decode [99]).toOption = some (.hlt, []) := by decide
theorem test_decode_three_relative : (decode [22201, 1, 2, 3]).toOption = some (.add (.relative 1) (.relative 2) (.relative 3), []) := by decide

/-- V-E7, V-E8, V-E9: digits that are not examined. -/
theorem test_decode_ignored_digits :
    (decode [10099]).toOption = some (.hlt, []) ∧ (decode [30004, 2]).toOption = some (.output (.position 2), []) ∧
      (decode [100001, 0, 0, 0]).toOption = some (.add (.position 0) (.position 0) (.position 0), []) := by decide

/-- V-E5, V-E6, V-E10, V-E12: the rejects, by name. -/
theorem test_decode_rejects :
    decode [0] = .error (.illegalOpcode 0) ∧ decode [98] = .error (.illegalOpcode 98) ∧
      decode [-1] = .error .negativeWord ∧ decode [301, 0, 0, 0] = .error (.illegalMode 1 3) ∧
      decode [1, 0, 0] = .error .missingOperandWord ∧ decode [] = .error .noInstructionWord := ⟨rfl, rfl, rfl, rfl, rfl, rfl⟩

/-- The table's numbering of bits: the first cell holds bits 63 to 0. -/
theorem test_decodeTableWord :
    decodeTableWord 8 4 = some (.output (.position 0)) ∧
      decodeTableWord 128 (1105 + 7 * 2 ^ 64) = some (.jnz (.immediate 7) (.immediate 0)) ∧
      decodeTableWord 8 98 = none := by decide

/-- From reset, the placed instruction is the one the next step runs: OUT of cell 0, which holds the word 4 itself. -/
theorem test_withFetchWord :
    (nextOf (step (State.reset.withFetchWord 8 4))).map (fun t => (t.log, t.pc, t.status)) =
      some ([4], 2, .suspended) := by decide

/-! ### Arithmetic (V-A and V-E vectors) -/

/-- V-A4, S4. -/
theorem test_add_own_word : cellAndPc 0 (boot [1, 0, 0, 0, 99]) = some (2, 4, .ready) := by decide

/-- V-A2: INT_MAX + 1 stores INT_MIN. -/
theorem test_add_wraps :
    (cellAndPc 5 (boot [1101, 9223372036854775807, 1, 5, 99, 0])).map (fun r => r.1.toInt) =
      some (-9223372036854775808) := by decide

/-- S5. -/
theorem test_mul_position : cellAndPc 3 (boot [2, 3, 0, 3, 99]) = some (6, 4, .ready) := by decide

/-- V-A11: 3037000500 squared, less 2^64. -/
theorem test_mul_wraps :
    (cellAndPc 5 (boot [1102, 3037000500, 3037000500, 5, 99, 0])).map (fun r => r.1.toInt) =
      some (-9223372036709301616) := by decide

/-! ### Input and output (V-IO vectors) -/

/-- V-IO2. -/
theorem test_input_first_in_first_out :
    (nextOf (step (boot [3, 3, 99, 0] [7, 8]))).map (fun t => (t.mem.read 3, t.inq, t.pc)) = some (7, [8], 2) := by decide

/-- V-IO3, V-IO4, V-IO5, V-IO6: underflow first; a fault leaves the queue. -/
theorem test_input_faults :
    faultsWith 3 (boot [3, 3, 99, 0]) ∧ faultsWith 2 (boot [103, 3, 99, 0] [5]) ∧ faultsWith 3 (boot [103, 3, 99, 0]) ∧
      faultsWith 4 (boot [3, 9, 99] [5]) := by decide

/-- V-IO8. -/
theorem test_output_immediate :
    (nextOf (step (boot [104, -17, 99]))).map (fun t => (t.log, t.pc, t.status)) = some ([-17], 2, .suspended) := by decide

/-- V-R3: Relative read, 4 + (-1) = 3. -/
theorem test_output_relative :
    (nextOf (step (bootRb 4 [204, -1, 99, 5]))).map (fun t => t.log) = some [5] := by decide

/-! ### Jumps (V-J vectors) -/

/-- V-J3: a negative value is true, the target is the content of the cell. -/
theorem test_jnz_indirect :
    (nextOf (step (boot [5, 4, 5, 99, -3, 3]))).map (fun t => (t.pc, t.status)) = some (3, .ready) := by decide

/-- V-J2, V-J7, V-J8, V-J9, V-J10: not taken; negative target; target beyond CAP; b resolved only when taken. -/
theorem test_jnz_targets :
    (nextOf (step (boot [1105, 0, 7, 99]))).map State.pc = some 3 ∧ faultsWith 4 (boot [1105, 1, -1, 99]) ∧
      (nextOf (step (boot [1105, 1, 100, 99]))).map State.pc = some 100 ∧
      (nextOf (step (boot [5, 3, 50, 0, 99]))).map State.pc = some 3 ∧ faultsWith 4 (boot [5, 0, 50, 0, 99]) := by decide

/-- V-J4, V-J5. -/
theorem test_jz :
    (nextOf (step (boot [1106, 0, 4, 0, 99]))).map State.pc = some 4 ∧
      (nextOf (step (boot [1106, 5, 4, 99]))).map State.pc = some 3 := by decide

/-! ### Comparison (V-C vectors) -/

/-- V-C3, V-C5: the comparison is signed. -/
theorem test_lt_signed :
    cellAndPc 5 (boot [1107, -1, 0, 5, 99, -1]) = some (1, 4, .ready) ∧
      cellAndPc 5 (boot [1107, 9223372036854775807, -9223372036854775808, 5, 99, -1]) = some (0, 4, .ready) := by decide

/-- V-C2: equal values. -/
theorem test_lt_equal : cellAndPc 5 (boot [1107, 8, 8, 5, 99, -1]) = some (0, 4, .ready) := by decide

/-- V-C7, V-C8. -/
theorem test_eq :
    cellAndPc 5 (boot [1108, 8, -8, 5, 99, -1]) = some (0, 4, .ready) ∧
      cellAndPc 0 (boot [8, 5, 6, 0, 99, 4, 4]) = some (1, 4, .ready) := by decide

/-! ### Relative base and halt (V-B vectors) -/

/-- V-B4: the operand is resolved with the old rb. -/
theorem test_arb_relative :
    (nextOf (step (bootRb 5 [209, 1, 99, 0, 0, 0, 11]))).map (fun t => (t.rb, t.pc)) = some (16, 2) := by decide

/-- V-B5: INT_MAX + 1 wraps to INT_MIN. -/
theorem test_arb_wraps :
    (nextOf (step (bootRb 9223372036854775807 [109, 1, 99]))).map (fun t => t.rb.toInt) =
      some (-9223372036854775808) := by decide

/-- V-B7: Halt, and HALTED stays. -/
theorem test_hlt :
    (nextOf (step (boot [99]))).map (fun t => (t.pc, t.status)) = some (1, .halted) ∧
      nextOf (step { boot [99] with status := .halted }) = some { boot [99] with status := .halted } := by decide

/-! ### Fetch, faults, priority (V-E, V-R and V-F vectors) -/

/-- V-E11 (and V-H1): the empty memory of power-on. -/
theorem test_reset_step_faults : faultsWith 4 State.reset := by decide

/-- V-E5, V-E6, V-E10, V-E12, V-F1, V-F6. -/
theorem test_decode_faults :
    faultsWith 1 (boot [98]) ∧ faultsWith 1 (boot [-99]) ∧ faultsWith 1 (boot [301, 0, 0, 0, 99]) ∧
      faultsWith 4 (boot [1, 0, 0]) ∧ faultsWith 1 (boot [301]) ∧ faultsWith 4 (boot [3]) := by decide

/-- V-R5, V-R6, V-R7: addresses at CAP, below 0, and an exact sum of -2^64. -/
theorem test_address_faults :
    faultsWith 4 (boot [4, 3, 99]) ∧ faultsWith 4 (boot [4, -1, 99]) ∧
      faultsWith 4 (bootRb (-9223372036854775808) [2201, -9223372036854775808, 0, 0, 99]) := by decide

/-- V-F3, V-F4, V-A13: order of a read fault, an Immediate target and an out-of-range target. -/
theorem test_write_faults :
    faultsWith 2 (boot [11101, 1, 2, 9, 99]) ∧ faultsWith 4 (boot [10001, 9, 0, 0, 99]) ∧
      faultsWith 4 (boot [1101, 1, 2, 5, 99]) := by decide

/-- S1, S2, S3: the resolver's examples. -/
theorem test_resolver :
    readParam (.immediate 100) (boot [1, 2, 3]) = .ok 100 ∧ readParam (.position 1) (boot [1, 2, 3]) = .ok 2 ∧
      readParam (.relative 1) (boot [1, 2, 3, 4, 5]) = .ok 2 ∧
      readParam (.relative 1) (bootRb 2 [1, 2, 3, 4, 5]) = .ok 4 := ⟨rfl, rfl, rfl, rfl⟩

/-! ### Host commands (V-H vectors, S7) -/

/-- V-H2, in part: growth, zero fill, no shrink, refusals. -/
theorem test_reserve_and_read :
    (readMem 4 (boot [1, 0, 0, 0, 99])).2 = .value 99 ∧ (readMem 5 (boot [1, 0, 0, 0, 99])).2 = .refused .badAddress ∧
      (readMem 7 (reserve 3000 8 (boot [1, 0, 0, 0, 99])).1).2 = .value 0 ∧
      (reserve 3000 3 (boot [1, 0, 0, 0, 99])).1.cap = 5 ∧
      (reserve 3000 3001 (boot [1, 0, 0, 0, 99])).2 = .refused .capacityExceeded ∧
      (readMem (-1) (boot [99])).2 = .refused .badAddress := by decide

/-- S7: with SUSPEND set, RUN returns after the first Output. -/
theorem test_run_suspends :
    (runFor 3 (enableSuspend (boot [104, 1, 104, 2, 99])).1).map (fun r => (r.2, r.1.pc, r.1.log)) =
      some (.output 1, 2, [1]) := by decide

/-- S7, V-H5: without it, RUN goes on to Halt. -/
theorem test_run_to_halt :
    (runFor 3 (boot [104, 1, 104, 2, 99])).map (fun r => (r.2, r.1.pc, r.1.log)) = some (.halted, 5, [1, 2]) := by decide

/-- V-H4: FAULTED is permanent, a pushed value is kept. -/
theorem test_fault_is_permanent :
    (runFor 1 (pushInput 1 (takeFault .inputUnderflow (boot [3, 3, 99, 0]))).1).map (fun r => (r.2, r.1.inq)) =
      some (.fault 3, [1]) := by decide

/-- P1's listing, in part, assembles to its cells. -/
theorem test_assemble :
    assemble [.input (.position (.label "n")), .label "loop", .jz (.immediate (.literal 0)) (.immediate (.label "loop")),
      .label "n", .word [.literal (-7)]] = some [3, 5, 1106, 0, 2, -7] ∧
    assemble [.output (.relativeMinus (.literal 1))] = some [204, -1] := by decide

/-- The listings of R93. -/
theorem test_listing_text :
    instrText (.mul (.immediate 34915192) (.immediate 34915192) (.position 7)) = "MUL #34915192, #34915192, [7]" ∧
      instrText (.output (.relative (-1))) = "OUT [rb-1]" ∧ instrText .hlt = "HLT" := by decide

/-! ### Witnesses: the hypotheses of the statements can be met -/

theorem boot_consistent : Consistent 3000 (boot [1, 0, 0, 0, 99]) := by
  constructor <;> decide

theorem witness_StepKeepsConsistent :
    ((3000 : Nat) : Int) ≤ intMax ∧ Consistent 3000 (boot [1, 0, 0, 0, 99]) ∧
      step (boot [1, 0, 0, 0, 99]) = .next { boot [2, 0, 0, 0, 99] with pc := 4 } :=
  ⟨by decide, boot_consistent, rfl⟩

theorem witness_CommandsKeepConsistent :
    ((3000 : Nat) : Int) ≤ intMax ∧ Consistent 3000 (boot [1, 0, 0, 0, 99]) ∧
      Answers 3000 .run (boot [1, 0, 0, 0, 99]) { boot [2, 0, 0, 0, 99] with pc := 5, status := .halted }
        (.signal .halted) :=
  ⟨by decide, boot_consistent, 2, rfl⟩

theorem witness_SessionsStayConsistent :
    ((3000 : Nat) : Int) ≤ intMax ∧
      Session 3000 State.reset [.load [99] [], .step] [.ok, .signal .halted]
        { boot [99] with pc := 1, status := .halted } :=
  ⟨by decide, .more ⟨0, rfl⟩ (.more ⟨0, rfl⟩ (.done _))⟩

theorem witness_SessionsStayConsistent_here :
    Session Config.capMax.val State.reset [.pushInput 5, .step] [.ok, .signal (.fault 4)]
      { State.reset with inq := [5], status := .faulted, fcause := some .addressOutOfBounds } :=
  .more ⟨0, rfl⟩ (.more ⟨0, rfl⟩ (.done _))

theorem witness_ReadAfterWrite :
    memWrite 1 0 (boot [7, 8]) = .ok { boot [7, 8] with mem := [(0, 7)] } ∧ (boot [7, 8]).mem.wf = true ∧
      (0 : Int) ≠ 1 := ⟨rfl, by decide, by decide⟩

theorem witness_CanonicalMemoryUnique :
    Memory.wf [(2, 5)] = true ∧ Memory.wf (Memory.write (Memory.write [] 3 1) 2 5 |>.write 3 0) = true ∧
      ∀ a, Memory.read [(2, 5)] a = Memory.read (Memory.write (Memory.write [] 3 1) 2 5 |>.write 3 0) a :=
  ⟨by decide, by decide, fun _ => rfl⟩

theorem witness_WrapIsTheCongruentValue :
    intMin ≤ intMin ∧ intMin ≤ intMax ∧ intMin % 2 ^ 64 = (intMax + 1) % 2 ^ 64 := by decide

theorem witness_DecodedCells :
    decode [100204, -1, 33] = .ok (.output (.relative (-1)), [33]) := rfl

theorem witness_UnexaminedDigitsIgnored :
    0 ≤ (9900099 : Word).toInt ∧ 0 ≤ (99 : Word).toInt ∧ opcodeOf ((99 : Word).toNat % 100) = some .f0 ∧
      (9900099 : Word).toNat % 10 ^ (2 + Opcode.f0.nparams) = (99 : Word).toNat % 10 ^ (2 + Opcode.f0.nparams) := by decide

theorem witness_UnexaminedDigitsIgnored_three :
    0 ≤ (100001 : Word).toInt ∧ 0 ≤ (1 : Word).toInt ∧ opcodeOf ((1 : Word).toNat % 100) = some (.f3 .add) ∧
      (100001 : Word).toNat % 10 ^ (2 + (Opcode.f3 .add).nparams) =
        (1 : Word).toNat % 10 ^ (2 + (Opcode.f3 .add).nparams) := by decide

theorem witness_StepRunsDecodedInstruction :
    (boot [11101, 1, 2, 3, 99]).Accepting ∧
      decode ((boot [11101, 1, 2, 3, 99]).window 4) = .ok (.add (.immediate 1) (.immediate 2) (.immediate 3), []) :=
  ⟨by decide, rfl⟩

theorem witness_StepRunsDecodedInstruction_last_cell :
    State.Accepting { boot [7, 99] with pc := 1, status := .suspended } ∧
      decode (State.window { boot [7, 99] with pc := 1, status := .suspended } 4) = .ok (.hlt, []) :=
  ⟨by decide, rfl⟩

theorem witness_StepFaultsWhereNothingDecodes :
    State.reset.Accepting ∧ decode (State.reset.window 4) = .error .noInstructionWord ∧
      (boot [1, 0, 0]).Accepting ∧ decode ((boot [1, 0, 0]).window 4) = .error .missingOperandWord ∧
      (boot [301]).Accepting ∧ decode ((boot [301]).window 4) = .error (.illegalMode 1 3) :=
  ⟨by decide, rfl, by decide, rfl, by decide, rfl⟩

theorem witness_FetchBeyondCapacity :
    State.Accepting { boot [99] with pc := 1 } ∧ State.cap { boot [99] with pc := 1 } ≤ State.pc { boot [99] with pc := 1 } := by
  decide

theorem witness_IllegalOpcodeRaisesDecodeError :
    (boot [298]).Accepting ∧ memRead 0 (boot [298]) = .ok 298 ∧ 0 ≤ (298 : Word).toInt ∧
      (298 : Word).toNat % 100 ∉ [1, 2, 3, 4, 5, 6, 7, 8, 9, 99] := ⟨by decide, rfl, by decide, by decide⟩

theorem witness_IllegalOpcodeRaisesDecodeError_ten :
    (boot [10]).Accepting ∧ memRead 0 (boot [10]) = .ok 10 ∧ 0 ≤ (10 : Word).toInt ∧
      (10 : Word).toNat % 100 ∉ [1, 2, 3, 4, 5, 6, 7, 8, 9, 99] := ⟨by decide, rfl, by decide, by decide⟩

theorem witness_IllegalOpcodeRaisesDecodeError_zero :
    (boot [0]).Accepting ∧ memRead (boot [0]).pc (boot [0]) = .ok 0 := ⟨by decide, rfl⟩

theorem witness_IllegalModeRaisesDecodeError :
    (boot [301]).Accepting ∧ memRead 0 (boot [301]) = .ok 301 ∧ 0 ≤ (301 : Word).toInt ∧
      opcodeOf ((301 : Word).toNat % 100) = some (.f3 .add) ∧ 1 ≤ 1 ∧ 1 ≤ (Opcode.f3 .add).nparams ∧
      3 ≤ (301 : Word).toNat / 10 ^ (1 + 1) % 10 :=
  ⟨by decide, rfl, by decide, by decide, by decide, by decide, by decide⟩

theorem witness_IllegalModeRaisesDecodeError_third :
    (boot [90008]).Accepting ∧ memRead 0 (boot [90008]) = .ok 90008 ∧ 0 ≤ (90008 : Word).toInt ∧
      opcodeOf ((90008 : Word).toNat % 100) = some (.f3 .eq) ∧ 1 ≤ 3 ∧ 3 ≤ (Opcode.f3 .eq).nparams ∧
      3 ≤ (90008 : Word).toNat / 10 ^ (3 + 1) % 10 :=
  ⟨by decide, rfl, by decide, by decide, by decide, by decide, by decide⟩

theorem witness_OperandWordsFetched_missing :
    (boot [1, 0, 0]).Accepting ∧ memRead 0 (boot [1, 0, 0]) = .ok 1 ∧
      decodeHead 1 = .ok (.f3 .add .position .position .position) ∧
      (boot [1, 0, 0]).cap ≤ (boot [1, 0, 0]).pc + (Opcode.f3 .add).nparams := ⟨by decide, rfl, rfl, by decide⟩

theorem witness_OperandWordsFetched_present :
    (boot [1, 0, 0, 0]).Accepting ∧ memRead 0 (boot [1, 0, 0, 0]) = .ok 1 ∧
      decodeHead 1 = .ok (.f3 .add .position .position .position) ∧
      (boot [1, 0, 0, 0]).pc + (Opcode.f3 .add).nparams < (boot [1, 0, 0, 0]).cap := ⟨by decide, rfl, rfl, by decide⟩

theorem witness_ReadParamGives_bounds :
    (0 : Int) ≤ 0 ∧ (0 : Int) < (boot [7]).cap ∧ ((boot [7]).cap : Int) ≤ 1 ∧ (-1 : Int) < 0 := by decide

theorem witness_RelativeAddressNeverWraps :
    ¬ (bootRb (-9223372036854775808) [99]).HasCell
      ((bootRb (-9223372036854775808) [99]).rb.toInt + (-9223372036854775808 : Word).toInt) := by decide

/-- The hypotheses of ThreeOperandRule's five clauses (AddRule, MultiplyRule, LessThanRule, EqualsRule), at the edges of
a memory of five cells. -/
theorem witness_threeOperand_completes :
    Readable (.position 0) (boot [1, 0, 0, 0, 99]) ∧ Readable (.immediate (-5)) (boot [1, 0, 0, 0, 99]) ∧
      effectiveAddress (boot [1, 0, 0, 0, 99]) (.position 4) = some 4 ∧ (boot [1, 0, 0, 0, 99]).HasCell 4 := by
  refine ⟨?_, ?_, ?_, ?_⟩ <;> decide

theorem witness_threeOperand_a_unreadable : ¬ Readable (.position (-1)) (boot [1, 0, 0, 0, 99]) := by decide

theorem witness_threeOperand_b_unreadable :
    Readable (.relative 4) (boot [1, 0, 0, 0, 99]) ∧ ¬ Readable (.position 5) (boot [1, 0, 0, 0, 99]) := by
  refine ⟨?_, ?_⟩ <;> decide

theorem witness_threeOperand_out_immediate :
    Readable (.position 0) (boot [1, 0, 0, 0, 99]) ∧ Readable (.position 4) (boot [1, 0, 0, 0, 99]) ∧
      effectiveAddress (boot [1, 0, 0, 0, 99]) (.immediate 0) = none := by
  refine ⟨?_, ?_, ?_⟩ <;> decide

theorem witness_threeOperand_out_outside :
    Readable (.position 0) (boot [1, 0, 0, 0, 99]) ∧ Readable (.position 4) (boot [1, 0, 0, 0, 99]) ∧
      effectiveAddress (boot [1, 0, 0, 0, 99]) (.relative 5) = some 5 ∧ ¬ (boot [1, 0, 0, 0, 99]).HasCell 5 := by
  refine ⟨?_, ?_, ?_, ?_⟩ <;> decide

theorem witness_InputRule_completes :
    (boot [3, 3, 99, 0] [7, 8]).inq = 7 :: [8] ∧
      effectiveAddress (boot [3, 3, 99, 0] [7, 8]) (.position 3) = some 3 ∧ (boot [3, 3, 99, 0] [7, 8]).HasCell 3 := by
  refine ⟨?_, ?_, ?_⟩ <;> decide

theorem witness_InputRule_underflow : (boot [3, 3, 99, 0]).inq = [] := rfl

theorem witness_InputRule_immediate :
    (boot [103, 3, 99, 0] [5]).inq ≠ [] ∧ effectiveAddress (boot [103, 3, 99, 0] [5]) (.immediate 3) = none := by
  refine ⟨?_, ?_⟩ <;> decide

theorem witness_InputRule_outside :
    (boot [3, 3, 99] [5]).inq ≠ [] ∧ effectiveAddress (boot [3, 3, 99] [5]) (.position 3) = some 3 ∧
      ¬ (boot [3, 3, 99] [5]).HasCell 3 := by
  refine ⟨?_, ?_, ?_⟩ <;> decide

theorem witness_OutputRule_and_AdjustBaseRule :
    Readable (.relative (-1)) (bootRb 4 [204, -1, 99, 5]) ∧ ¬ Readable (.position 4) (bootRb 4 [204, -1, 99, 5]) := by
  refine ⟨?_, ?_⟩ <;> decide

/-- The hypotheses of JumpRule's five clauses, for JNZ and, with the conditions exchanged, for JZ. -/
theorem witness_jump_conditions :
    Readable (.position 0) (boot [5, 0, 50, 0, 99]) ∧
      (operandValue (.position 0) (boot [5, 0, 50, 0, 99])).toInt ≠ 0 ∧
      Readable (.position 3) (boot [5, 0, 50, 0, 99]) ∧
      (operandValue (.position 3) (boot [5, 0, 50, 0, 99])).toInt = 0 := by
  refine ⟨?_, ?_, ?_, ?_⟩ <;> decide

theorem witness_jump_taken :
    Readable (.position 4) (boot [5, 0, 50, 0, 99]) ∧
      0 ≤ (operandValue (.position 4) (boot [5, 0, 50, 0, 99])).toInt := by
  refine ⟨?_, ?_⟩ <;> decide

theorem witness_jump_a_unreadable : ¬ Readable (.position 5) (boot [5, 0, 50, 0, 99]) := by decide

theorem witness_jump_target_faults :
    ¬ Readable (.position 50) (boot [5, 0, 50, 0, 99]) ∧ Readable (.immediate (-1)) (boot [5, 0, 50, 0, 99]) ∧
      (operandValue (.immediate (-1)) (boot [5, 0, 50, 0, 99])).toInt < 0 := by
  refine ⟨?_, ?_, ?_⟩ <;> decide

theorem witness_PcAdvancesByLength :
    Instr.arb (.immediate 19) ≠ .hlt ∧ (∀ a b, Instr.arb (.immediate 19) ≠ .jnz a b ∧ Instr.arb (.immediate 19) ≠ .jz a b) ∧
      exec (.arb (.immediate 19)) (boot [109, 19, 99]) = .next { boot [109, 19, 99] with rb := 19, pc := 2 } ∧
      State.status { boot [109, 19, 99] with rb := 19, pc := 2 } ≠ .faulted :=
  ⟨by decide, by simp, rfl, by decide⟩

/-- The frames' hypotheses: each instruction has a next state that completes, on one small state. -/
theorem witness_frames :
    exec (.add (.immediate 1) (.immediate 2) (.position 0)) (boot [99] [6]) = .next { boot [3] [6] with pc := 4 } ∧
      exec (.mul (.immediate 3) (.immediate 2) (.position 0)) (boot [99] [6]) = .next { boot [6] [6] with pc := 4 } ∧
      exec (.lt (.immediate 1) (.immediate 2) (.position 0)) (boot [99] [6]) = .next { boot [1] [6] with pc := 4 } ∧
      exec (.eq (.immediate 2) (.immediate 2) (.position 0)) (boot [99] [6]) = .next { boot [1] [6] with pc := 4 } ∧
      exec (.input (.position 0)) (boot [99] [6]) = .next { boot [6] [] with pc := 2 } ∧
      exec (.output (.position 0)) (boot [99] [6]) = .next { boot [99] [6] with pc := 2, log := [99], status := .suspended } ∧
      exec (.jnz (.immediate 1) (.immediate 9)) (boot [99] [6]) = .next { boot [99] [6] with pc := 9 } ∧
      exec (.jz (.immediate 1) (.immediate 9)) (boot [99] [6]) = .next { boot [99] [6] with pc := 3 } ∧
      exec (.arb (.position 0)) (boot [99] [6]) = .next { boot [99] [6] with pc := 2, rb := 99 } ∧
      exec .hlt (boot [99] [6]) = .next { boot [99] [6] with pc := 1, status := .halted } :=
  ⟨rfl, rfl, rfl, rfl, rfl, rfl, rfl, rfl, rfl, rfl⟩

/-- The frames' other inputs: an address outside the stored cell, and a next state that completed (KeepsControl). -/
theorem witness_frames_outside :
    effectiveAddress (boot [99] [6]) (.position 0) ≠ some 1 ∧ State.status { boot [3] [6] with pc := 4 } ≠ .faulted := by
  refine ⟨?_, ?_⟩ <;> decide

theorem witness_FaultsArePrecise :
    exec (.input (.position 0)) (boot [3, 0]) = .next (takeFault .inputUnderflow (boot [3, 0])) ∧
      (takeFault .inputUnderflow (boot [3, 0])).status = .faulted ∧ (boot [3, 0]).Accepting ∧
      step (boot [3, 0]) = .next (takeFault .inputUnderflow (boot [3, 0])) := ⟨rfl, rfl, by decide, rfl⟩

/-- Each fault the table of R231 gives an instruction is raised by it on some operands. -/
theorem witness_FaultsEachInstructionCanRaise :
    exec (.add (.immediate 1) (.immediate 1) (.immediate 0)) (boot [1]) = .next (takeFault .writeToImmediate (boot [1])) ∧
      exec (.mul (.immediate 1) (.immediate 1) (.position 1)) (boot [1]) = .next (takeFault .addressOutOfBounds (boot [1])) ∧
      exec (.lt (.position 1) (.immediate 1) (.position 0)) (boot [1]) = .next (takeFault .addressOutOfBounds (boot [1])) ∧
      exec (.eq (.immediate 1) (.position 1) (.position 0)) (boot [1]) = .next (takeFault .addressOutOfBounds (boot [1])) ∧
      exec (.input (.position 0)) (boot [1]) = .next (takeFault .inputUnderflow (boot [1])) ∧
      exec (.output (.position 1)) (boot [1]) = .next (takeFault .addressOutOfBounds (boot [1])) ∧
      exec (.arb (.position 1)) (boot [1]) = .next (takeFault .addressOutOfBounds (boot [1])) ∧
      exec (.jnz (.immediate 1) (.immediate (-1))) (boot [1]) = .next (takeFault .addressOutOfBounds (boot [1])) ∧
      exec (.jz (.immediate 0) (.position 1)) (boot [1]) = .next (takeFault .addressOutOfBounds (boot [1])) :=
  ⟨rfl, rfl, rfl, rfl, rfl, rfl, rfl, rfl, rfl⟩

theorem witness_IllFormedNeverCompletes :
    Instr.wellFormed (.input (.immediate 3)) = false ∧
      exec (.input (.immediate 3)) (boot [103, 3] [5]) = .next (takeFault .writeToImmediate (boot [103, 3] [5])) :=
  ⟨by decide, rfl⟩

theorem witness_StoppedStaysStopped :
    State.status { boot [99] with status := .halted } = .halted ∧ (takeFault .decodeError (boot [0])).status = .faulted :=
  ⟨rfl, rfl⟩

theorem witness_OnlyLoadRevives :
    ((takeFault .inputUnderflow (boot [3, 3, 99, 0])).status = .halted ∨
        (takeFault .inputUnderflow (boot [3, 3, 99, 0])).status = .faulted) ∧
      NoLoad [.pushInput 1, .run] ∧
      Session 3000 (takeFault .inputUnderflow (boot [3, 3, 99, 0])) [.pushInput 1, .run] [.ok, .signal (.fault 3)]
        { takeFault .inputUnderflow (boot [3, 3, 99, 0]) with inq := [1] } ∧
      (3 : Int) < (takeFault .inputUnderflow (boot [3, 3, 99, 0])).cap :=
  ⟨by decide, by simp [NoLoad], .more ⟨0, rfl⟩ (.more ⟨1, rfl⟩ (.done _)), by decide⟩

theorem witness_StepKeepsCapacityAndPolicy :
    step (boot [104, 5]) = .next { boot [104, 5] with pc := 2, log := [5], status := .suspended } := rfl

theorem witness_OnlyArbWritesBaseOnlyInTakesInput :
    exec (.arb (.immediate 1)) (boot [99] [6]) = .next { boot [99] [6] with pc := 2, rb := 1 } ∧
      State.rb { boot [99] [6] with pc := 2, rb := 1 } ≠ (boot [99] [6]).rb ∧
      exec (.input (.position 0)) (boot [99] [6]) = .next { boot [6] [] with pc := 2 } ∧
      State.inq { boot [6] [] with pc := 2 } ≠ (boot [99] [6]).inq :=
  ⟨rfl, by decide, rfl, by decide⟩

theorem witness_OnlyWriteParameterChangesMemory :
    exec (.input (.position 0)) (boot [99] [6]) = .next { boot [6] [] with pc := 2 } ∧
      memRead 0 { boot [6] [] with pc := 2 } ≠ memRead 0 (boot [99] [6]) := by
  refine ⟨rfl, fun h => ?_⟩
  have h6 : memRead 0 { boot [6] [] with pc := 2 } = .ok 6 := rfl
  have h99 : memRead 0 (boot [99] [6]) = .ok 99 := rfl
  rw [h6, h99] at h
  cases h

theorem witness_ProgramCannotReadHostSide :
    (boot [109, 1]).Accepting ∧ State.Accepting { boot [109, 1] with log := [7], suspend := true, status := .suspended } ∧
      step (boot [109, 1]) = .next { boot [109, 1] with pc := 2, rb := 1 } ∧
      step { boot [109, 1] with log := [7], suspend := true, status := .suspended } =
        .next { boot [109, 1] with pc := 2, rb := 1, log := [7], suspend := true } :=
  ⟨by decide, by decide, rfl, rfl⟩

theorem witness_GrowthIsInvisibleWithoutFault :
    Consistent 3000 (boot [1, 0, 0, 0, 99]) ∧
      step (boot [1, 0, 0, 0, 99]) = .next { boot [2, 0, 0, 0, 99] with pc := 4 } ∧
      State.NoFault { boot [2, 0, 0, 0, 99] with pc := 4 } ∧ (boot [1, 0, 0, 0, 99]).cap < 8 :=
  ⟨boot_consistent, rfl, by decide, by decide⟩

theorem witness_LoadRule_bounds :
    ([3, 4] : List Word).length ≤ 2 ∧ 1 < ([3, 4] : List Word).length := by decide

theorem witness_ReserveRule_bounds :
    (7 : Nat) < 8 ∧ (8 : Nat) ≤ 8 ∧ ((boot [99]).cap : Int) ≤ 1 ∧ (1 : Int) < (8 : Nat) ∧ (0 : Int) < (boot [99]).cap ∧
      (boot [99]).mem.wf = true := by decide

theorem witness_FeedAndInspectRules_bounds :
    (0 : Int) ≤ 0 ∧ (0 : Int) < (boot [99]).cap ∧ ((boot [99]).cap : Int) ≤ 1 ∧ (-1 : Int) < 0 := by decide

theorem witness_StepSignals_output :
    Consistent 3000 (boot [104, 5]) ∧
      stepCommand (boot [104, 5]) = ({ boot [104, 5] with pc := 2, log := [5], status := .suspended }, .output 5) := by
  refine ⟨?_, rfl⟩
  constructor <;> decide

theorem witness_StepSignals_fault :
    Consistent 3000 (boot [3, 0]) ∧ stepCommand (boot [3, 0]) = (takeFault .inputUnderflow (boot [3, 0]), .fault 3) := by
  refine ⟨?_, rfl⟩
  constructor <;> decide

theorem witness_RunResultsUniqueAndReached :
    RunReturns { boot [104, 1, 99] with suspend := true }
      { boot [104, 1, 99] with suspend := true, pc := 2, log := [1], status := .suspended } (.output 1) := ⟨1, rfl⟩

theorem witness_SelfJumpNeverReturns :
    (boot [1106, 0, 0]).Accepting ∧ (0 : Word).toInt = (boot [1106, 0, 0]).pc ∧
      fetch (boot [1106, 0, 0]) = .ok (.jz (.immediate 0) (.immediate 0)) ∧
      fetch (boot [1105, 1, 0]) = .ok (.jnz (.immediate 1) (.immediate 0)) := ⟨by decide, by decide, rfl, rfl⟩

theorem witness_GrowsBetweenLoads :
    NoLoad [.reserve 4, .enableSuspend, .run] ∧
      Session 3000 (boot [104, 1]) [.reserve 4, .enableSuspend, .run] [.ok, .ok, .signal (.output 1)]
        { boot [104, 1] with cap := 4, suspend := true, pc := 2, log := [1], status := .suspended } :=
  ⟨by simp [NoLoad], .more ⟨0, rfl⟩ (.more ⟨0, rfl⟩ (.more ⟨1, rfl⟩ (.done _)))⟩

theorem witness_StatusTransitions :
    Answers 3000 (.load [99] []) State.reset (boot [99]) .ok ∧
      Answers 3000 (.reserve 2) (boot [99]) { boot [99] with cap := 2 } .ok ∧
      Answers 3000 .step (boot [99]) { boot [99] with pc := 1, status := .halted } (.signal .halted) ∧
      Answers 3000 .run (boot [99]) { boot [99] with pc := 1, status := .halted } (.signal .halted) :=
  ⟨⟨0, rfl⟩, ⟨0, rfl⟩, ⟨0, rfl⟩, ⟨1, rfl⟩⟩

theorem witness_InstancesShareNothing :
    AnswersAt 3000 1 (.pushInput 6) [boot [99], boot [3, 0]] [boot [99], boot [3, 0] [6]] .ok :=
  ⟨boot [3, 0], boot [3, 0] [6], rfl, ⟨0, rfl⟩, rfl⟩

end Sys2Proof.Machine.Tests
end

/-! SUPPORT and the proof of O18 (`30_encoding.md` rule R87). A reject of the instruction word is a DecodeError of the
fetch, a fault of the fetch is the fault of the step, and a word without an opcode is a reject. -/

namespace Sys2Proof.Machine

/-- The opcode map has no entry exactly off the ten values of R86. -/
theorem opcodeOf_eq_none_iff (n : Nat) : opcodeOf n = none ↔ n ∉ [1, 2, 3, 4, 5, 6, 7, 8, 9, 99] := by
  unfold opcodeOf
  split <;> simp_all

theorem decodeHead_of_illegal_opcode {w : Word} (hw : 0 ≤ w.toInt) (hop : opcodeOf (w.toNat % 100) = none) :
    decodeHead w = .error (.illegalOpcode (w.toNat % 100)) := by
  simp [decodeHead, hop, Int.not_lt.mpr hw]

/-- R87 to R89: a reject of the instruction word raises DecodeError before any operand word is read. -/
theorem fetch_of_decodeHead_error {s : State} {w : Word} {r : DecodeReject} (hw : memRead s.pc s = .ok w)
    (hr : decodeHead w = .error r) : fetch s = .error .decodeError := by
  simp only [fetch, hw, bind, Except.bind, hr]

theorem accepting_not_terminal {s : State} (hs : s.Accepting) : s.status.terminal = false := by
  rcases hs with h | h <;> rw [h] <;> rfl

/-- R110: in READY and SUSPENDED the step takes the fault of its fetch. -/
theorem step_of_fetch_error {s : State} {f : Fault} (hs : s.Accepting) (hf : fetch s = .error f) :
    step s = .next (takeFault f s) := by
  rcases step_cases s with ⟨ht, _⟩ | ⟨_, g, hg, hstep⟩ | ⟨_, i, hi, _⟩
  · cases (accepting_not_terminal hs).symm.trans ht
  · cases hf.symm.trans hg
    exact hstep
  · cases hf.symm.trans hi

/-- A reject of the instruction word is taken as DecodeError by the step in READY and SUSPENDED. -/
theorem step_of_decodeHead_error {s : State} {w : Word} {r : DecodeReject} (hs : s.Accepting)
    (hw : memRead s.pc s = .ok w) (hr : decodeHead w = .error r) : step s = .next (takeFault .decodeError s) :=
  step_of_fetch_error hs (fetch_of_decodeHead_error hw hr)

/-- Settles O18: a word off the opcode map is rejected by `decodeHead`, and so faults the step; 0 is such a word. -/
theorem illegalOpcodeRaisesDecodeError : Obligations.IllegalOpcodeRaisesDecodeError := by
  have illegal (s : State) (w : Word) (hs : s.Accepting) (hw : memRead s.pc s = .ok w) (hpos : 0 ≤ w.toInt)
      (hop : w.toNat % 100 ∉ [1, 2, 3, 4, 5, 6, 7, 8, 9, 99]) : step s = .next (takeFault .decodeError s) :=
    step_of_decodeHead_error hs hw (decodeHead_of_illegal_opcode hpos ((opcodeOf_eq_none_iff _).mpr hop))
  refine ⟨illegal, fun s hs hw => illegal s 0 hs hw (by decide) (by decide), fun n hn => ?_⟩
  simp only [List.mem_cons, List.not_mem_nil, or_false]
  omega

end Sys2Proof.Machine

/-! SUPPORT for families that resolve operands. ReadParam and WriteParam mode by mode, and the two sides of the bound
check (`40_fetch_decode_resolve.md` rules R118 and R119; `20_memory.md` rules R53 and R58). -/

namespace Sys2Proof.Machine

theorem not_hasCell_iff {s : State} {addr : Int} : ¬ s.HasCell addr ↔ addr < 0 ∨ (s.cap : Int) ≤ addr := by
  simp only [State.HasCell]
  omega

/-- A read answers the value of the cell that exists, or raises AddressOutOfBounds. -/
theorem memRead_cases (addr : Int) (s : State) :
    s.HasCell addr ∧ memRead addr s = .ok (s.mem.read addr.toNat) ∨
      ¬ s.HasCell addr ∧ memRead addr s = .error .addressOutOfBounds := by
  by_cases h : s.HasCell addr
  · exact .inl ⟨h, memRead_of_hasCell h⟩
  · exact .inr ⟨h, memRead_of_not_hasCell h⟩

@[simp] theorem readParam_immediate (x : Word) (s : State) : readParam (.immediate x) s = .ok x := rfl
@[simp] theorem readParam_position (x : Word) (s : State) : readParam (.position x) s = memRead x.toInt s := rfl
@[simp] theorem readParam_relative (x : Word) (s : State) :
    readParam (.relative x) s = memRead (s.rb.toInt + x.toInt) s := rfl

@[simp] theorem writeParam_immediate (x v : Word) (s : State) :
    writeParam (.immediate x) v s = .error .writeToImmediate := rfl
@[simp] theorem writeParam_position (x v : Word) (s : State) :
    writeParam (.position x) v s = memWrite x.toInt v s := rfl
@[simp] theorem writeParam_relative (x v : Word) (s : State) :
    writeParam (.relative x) v s = memWrite (s.rb.toInt + x.toInt) v s := rfl

/-- Settles O22: each mode by its equation, the bound check by the two cases of `HasCell`. -/
theorem readParamGives : Obligations.ReadParamGives := fun s x =>
  ⟨readParam_immediate x s, readParam_position x s, readParam_relative x s, fun _ =>
    ⟨fun h0 hcap => memRead_of_hasCell ⟨h0, hcap⟩, fun h => memRead_of_not_hasCell (not_hasCell_iff.mpr h)⟩⟩

/-- Settles O23: each mode by its equation, the bound check by the two cases of `HasCell`. -/
theorem writeParamStores : Obligations.WriteParamStores := fun s x v =>
  ⟨writeParam_immediate x v s, writeParam_position x v s, writeParam_relative x v s, fun _ =>
    ⟨fun h0 hcap => memWrite_of_hasCell ⟨h0, hcap⟩ v,
      fun h => memWrite_of_not_hasCell (not_hasCell_iff.mpr h) v⟩⟩

end Sys2Proof.Machine

/-! SUPPORT. No instruction looks at the STATUS it begins in: its operands, its action and its end are the same under
any (`46_host_commands_run_control.md` rule R196). -/

namespace Sys2Proof.Machine

theorem readParam_setStatus (p : Param) (s : State) (st : Status) : readParam p (s.setStatus st) = readParam p s := by
  cases p <;> rfl

theorem memWrite_setStatus (addr : Int) (v : Word) (s : State) (st : Status) :
    memWrite addr v (s.setStatus st) = (memWrite addr v s).map (·.setStatus st) := by
  by_cases h : s.HasCell addr
  · rw [memWrite_of_hasCell h, memWrite_of_hasCell (s := s.setStatus st) h]; rfl
  · rw [memWrite_of_not_hasCell h, memWrite_of_not_hasCell (s := s.setStatus st) h]; rfl

theorem writeParam_setStatus (p : Param) (v : Word) (s : State) (st : Status) :
    writeParam p v (s.setStatus st) = (writeParam p v s).map (·.setStatus st) := by
  cases p with
  | immediate x => rfl
  | position x => exact memWrite_setStatus _ v s st
  | relative x => exact memWrite_setStatus _ v s st

/-- The result of an action with another STATUS in its state. -/
def resultWithStatus (st : Status) (r : Except Fault (State × Event)) : Except Fault (State × Event) :=
  r.map (fun (t, e) => (t.setStatus st, e))

/-- The end of an instruction overwrites STATUS, on the state it began in as on the state it leaves. -/
theorem settle_resultWithStatus (s : State) (st : Status) (r : Except Fault (State × Event)) :
    settle (s.setStatus st) (resultWithStatus st r) = settle s r := by
  cases r <;> rfl

theorem threeOperand_setStatus (f : Word → Word → Word) (a b out : Param) (s : State) (st : Status) :
    threeOperand f a b out (s.setStatus st) = resultWithStatus st (threeOperand f a b out s) := by
  simp only [threeOperand, readParam_setStatus, writeParam_setStatus]
  cases readParam a s with
  | error _ => rfl
  | ok va =>
    cases readParam b s with
    | error _ => rfl
    | ok vb => cases h : writeParam out (f va vb) s <;> simp only [bind, Except.bind, h] <;> rfl

theorem takeInput_setStatus (out : Param) (s : State) (st : Status) :
    takeInput out (s.setStatus st) = resultWithStatus st (takeInput out s) := by
  simp only [takeInput, State.setStatus_inq, writeParam_setStatus]
  cases s.inq with
  | nil => rfl
  | cons v rest => cases h : writeParam out v s <;> simp only [h] <;> rfl

theorem giveOutput_setStatus (a : Param) (s : State) (st : Status) :
    giveOutput a (s.setStatus st) = resultWithStatus st (giveOutput a s) := by
  simp only [giveOutput, readParam_setStatus]
  cases readParam a s <;> rfl

theorem jumpTo_setStatus (t : Word) (s : State) (st : Status) :
    jumpTo t (s.setStatus st) = resultWithStatus st (jumpTo t s) := by
  unfold jumpTo
  split <;> rfl

theorem conditionalJump_setStatus (test : Word → Bool) (a b : Param) (s : State) (st : Status) :
    conditionalJump test a b (s.setStatus st) = resultWithStatus st (conditionalJump test a b s) := by
  simp only [conditionalJump, readParam_setStatus, jumpTo_setStatus]
  cases readParam a s with
  | error _ => rfl
  | ok va =>
    simp only [bind, Except.bind]
    cases test va with
    | false => rfl
    | true => cases readParam b s <;> rfl

theorem adjustBase_setStatus (a : Param) (s : State) (st : Status) :
    adjustBase a (s.setStatus st) = resultWithStatus st (adjustBase a s) := by
  simp only [adjustBase, readParam_setStatus]
  cases readParam a s <;> rfl

theorem action_setStatus (i : Instr) (s : State) (st : Status) :
    action i (s.setStatus st) = resultWithStatus st (action i s) := by
  cases i with
  | add a b out => exact threeOperand_setStatus _ a b out s st
  | mul a b out => exact threeOperand_setStatus _ a b out s st
  | input out => exact takeInput_setStatus out s st
  | output a => exact giveOutput_setStatus a s st
  | jnz a b => exact conditionalJump_setStatus _ a b s st
  | jz a b => exact conditionalJump_setStatus _ a b s st
  | lt a b out => exact threeOperand_setStatus _ a b out s st
  | eq a b out => exact threeOperand_setStatus _ a b out s st
  | arb a => exact adjustBase_setStatus a s st
  | hlt => rfl

/-- What an instruction does is the same in every STATUS. -/
theorem exec_setStatus (i : Instr) (s : State) (st : Status) : exec i (s.setStatus st) = exec i s := by
  rw [exec_eq_settle, exec_eq_settle, action_setStatus, settle_resultWithStatus]

/-- R110, R196: in READY and SUSPENDED the step is exec of the instruction fetched, at the state itself. -/
theorem step_of_fetch_ok {s : State} {i : Instr} (hs : s.Accepting) (hi : fetch s = .ok i) : step s = exec i s := by
  rcases step_cases s with ⟨ht, _⟩ | ⟨_, f, hf, _⟩ | ⟨_, j, hj, hstep⟩
  · cases (accepting_not_terminal hs).symm.trans ht
  · cases hi.symm.trans hf
  · cases hi.symm.trans hj
    exact hstep.trans (exec_setStatus i s .running)

end Sys2Proof.Machine

/-! SUPPORT and the proofs of O17 and O20 (`40_fetch_decode_resolve.md` rules R111 and R115). The cells at and after pc
through MemRead, and what the operand words of a decoded instruction word are. -/

namespace Sys2Proof.Machine

/-- A cell after pc that exists reads as its value. -/
theorem memRead_pc_add_of_lt {s : State} {k : Nat} (h : s.pc + k < s.cap) :
    memRead ((s.pc : Int) + k) s = .ok (s.mem.read (s.pc + k)) :=
  memRead_of_hasCell ⟨by omega, by omega⟩

/-- A cell after pc at or above CAP raises AddressOutOfBounds (R115). -/
theorem memRead_pc_add_of_le {s : State} {k : Nat} (h : s.cap ≤ s.pc + k) :
    memRead ((s.pc : Int) + k) s = .error .addressOutOfBounds :=
  memRead_of_not_hasCell (not_hasCell_iff.mpr (.inr (by omega)))

theorem fetch_of_memRead_error {s : State} {f : Fault} (hf : memRead s.pc s = .error f) : fetch s = .error f := by
  simp only [fetch, hf, bind, Except.bind]

theorem fetch_of_decodeHead_ok {s : State} {w : Word} {h : Head} (hw : memRead s.pc s = .ok w)
    (hd : decodeHead w = .ok h) : fetch s = fetchOperands h s := by
  simp only [fetch, hw, bind, Except.bind, hd]

/-- Settles O17: the read at pc fails, and the fetch and the step with it. -/
theorem fetchBeyondCapacity : Obligations.FetchBeyondCapacity := by
  intro s hs hcap
  have hread : memRead s.pc s = .error .addressOutOfBounds :=
    memRead_of_not_hasCell (not_hasCell_iff.mpr (.inr (by omega)))
  exact ⟨hread, step_of_fetch_error hs (fetch_of_memRead_error hread)⟩

@[simp] theorem raw_param (m : Mode) (r : Word) : (m.param r).raw = r := by cases m <;> rfl

@[simp] theorem params_instr_f3 (op : OpF3) (a b out : Param) : (op.instr a b out).params = [a, b, out] := by
  cases op <;> rfl

@[simp] theorem params_instr_f2 (op : OpF2) (a b : Param) : (op.instr a b).params = [a, b] := by
  cases op <;> rfl

@[simp] theorem params_instr_f1 (op : OpF1) (a : Param) : (op.instr a).params = [a] := by
  cases op <;> rfl

/-- R115: with a cell for every operand word, the raw operands are the cells after pc in order. -/
theorem fetchOperands_of_lt {h : Head} {s : State} (hcap : s.pc + h.opcode.nparams < s.cap) :
    ∃ i, fetchOperands h s = .ok i ∧
      i.params.map Param.raw = (List.range h.opcode.nparams).map (fun k => s.mem.read (s.pc + 1 + k)) := by
  cases h with
  | f0 => exact ⟨.hlt, rfl, rfl⟩
  | f1 op m1 =>
    change s.pc + 1 < s.cap at hcap
    refine ⟨op.instr (m1.param (s.mem.read (s.pc + 1))), ?_, ?_⟩
    · have r1 : memRead (s.pc + 1) s = _ := memRead_pc_add_of_lt (k := 1) hcap
      simp only [fetchOperands, r1]
      rfl
    · simp [Head.opcode, Opcode.nparams, List.range_succ]
  | f2 op m1 m2 =>
    change s.pc + 2 < s.cap at hcap
    refine ⟨op.instr (m1.param (s.mem.read (s.pc + 1))) (m2.param (s.mem.read (s.pc + 2))), ?_, ?_⟩
    · have r1 : memRead (s.pc + 1) s = _ := memRead_pc_add_of_lt (k := 1) (by omega)
      have r2 : memRead (s.pc + 2) s = _ := memRead_pc_add_of_lt (k := 2) hcap
      simp only [fetchOperands, r1, r2]
      rfl
    · simp [Head.opcode, Opcode.nparams, List.range_succ, Nat.add_assoc]
  | f3 op m1 m2 m3 =>
    change s.pc + 3 < s.cap at hcap
    refine ⟨op.instr (m1.param (s.mem.read (s.pc + 1))) (m2.param (s.mem.read (s.pc + 2)))
      (m3.param (s.mem.read (s.pc + 3))), ?_, ?_⟩
    · have r1 : memRead (s.pc + 1) s = _ := memRead_pc_add_of_lt (k := 1) (by omega)
      have r2 : memRead (s.pc + 2) s = _ := memRead_pc_add_of_lt (k := 2) (by omega)
      have r3 : memRead (s.pc + 3) s = _ := memRead_pc_add_of_lt (k := 3) hcap
      simp only [fetchOperands, r1, r2, r3]
      rfl
    · simp [Head.opcode, Opcode.nparams, List.range_succ, Nat.add_assoc]

/-- R115: with an operand word missing, the first missing one raises AddressOutOfBounds. -/
theorem fetchOperands_of_le {h : Head} {s : State} (hpc : s.pc < s.cap) (hcap : s.cap ≤ s.pc + h.opcode.nparams) :
    fetchOperands h s = .error .addressOutOfBounds := by
  cases h with
  | f0 =>
    change s.cap ≤ s.pc at hcap
    omega
  | f1 op m1 =>
    have r1 : memRead (s.pc + 1) s = _ := memRead_pc_add_of_le (k := 1) hcap
    simp only [fetchOperands, r1]
    rfl
  | f2 op m1 m2 =>
    have r2 : memRead (s.pc + 2) s = _ := memRead_pc_add_of_le (k := 2) hcap
    simp only [fetchOperands, r2]
    rcases memRead_cases (s.pc + 1) s with ⟨_, r1⟩ | ⟨_, r1⟩ <;> rw [r1] <;> rfl
  | f3 op m1 m2 m3 =>
    have r3 : memRead (s.pc + 3) s = _ := memRead_pc_add_of_le (k := 3) hcap
    simp only [fetchOperands, r3]
    rcases memRead_cases (s.pc + 1) s with ⟨_, r1⟩ | ⟨_, r1⟩
    · rcases memRead_cases (s.pc + 2) s with ⟨_, r2⟩ | ⟨_, r2⟩ <;> rw [r1, r2] <;> rfl
    · rw [r1]; rfl

/-- Settles O20: a head's operand fetch fails or answers as the bound at its last operand word says, and the step
follows its fetch. -/
theorem operandWordsFetched : Obligations.OperandWordsFetched := by
  intro s w h hs hw hd
  have hfetch : fetch s = fetchOperands h s := fetch_of_decodeHead_ok hw hd
  have hpc : s.pc < s.cap := by exact_mod_cast (memRead_ok_iff.mp hw).1.2
  refine ⟨fun hle => step_of_fetch_error hs (hfetch.trans (fetchOperands_of_le hpc hle)), fun hlt => ?_⟩
  obtain ⟨i, hi, hraw⟩ := fetchOperands_of_lt hlt
  exact ⟨i, hfetch.trans hi, step_of_fetch_ok hs (hfetch.trans hi), hraw⟩

end Sys2Proof.Machine

/-! SUPPORT and the proofs of O25 and O26 (`41_arithmetic.md` rules R140 and R141). The rule and the encoding of an F3
instruction, for every instruction whose action is `threeOperand f` and whose parameters are a, b and out; ADD and MUL
are two of them. -/

namespace Sys2Proof.Machine

theorem writeParam_of_address {p : Param} {s : State} {d : Int} (hd : effectiveAddress s p = some d) (v : Word) :
    writeParam p v s = memWrite d v s := by
  simp only [writeParam, hd]

theorem writeParam_of_no_address {p : Param} {s : State} (hd : effectiveAddress s p = none) (v : Word) :
    writeParam p v s = .error .writeToImmediate := by
  simp only [writeParam, hd]

/-- With a and b readable, an F3 action is its write and the advance past three operand words. -/
theorem threeOperand_of_readable {a b : Param} {s : State} (ha : Readable a s) (hb : Readable b s)
    (f : Word → Word → Word) (out : Param) :
    threeOperand f a b out s =
      (writeParam out (f (operandValue a s) (operandValue b s)) s).map (fun t => (advance 3 t, .noEvent)) := by
  simp only [threeOperand, readParam_of_readable ha, readParam_of_readable hb]
  rfl

theorem threeOperand_of_first_not_readable {a : Param} {s : State} (ha : ¬ Readable a s)
    (f : Word → Word → Word) (b out : Param) : threeOperand f a b out s = .error .addressOutOfBounds := by
  simp only [threeOperand, readParam_of_not_readable ha]
  rfl

theorem threeOperand_of_second_not_readable {a b : Param} {s : State} (ha : Readable a s) (hb : ¬ Readable b s)
    (f : Word → Word → Word) (out : Param) : threeOperand f a b out s = .error .addressOutOfBounds := by
  simp only [threeOperand, readParam_of_readable ha, readParam_of_not_readable hb]
  rfl

/-- An instruction whose action is `threeOperand f` obeys the F3 rule with the result `f`. -/
theorem threeOperandRule_of_action {ins : Param → Param → Param → Instr} {f : Word → Word → Word}
    (haction : ∀ a b out s, action (ins a b out) s = threeOperand f a b out s) : ThreeOperandRule ins f := by
  intro a b out s
  rw [exec_eq_settle, haction]
  refine ⟨fun d ha hb hd hc => ?_, fun ha => ?_, fun ha hb => ?_, fun ha hb hd => ?_, fun d ha hb hd hc => ?_⟩
  · rw [threeOperand_of_readable ha hb, writeParam_of_address hd, memWrite_of_hasCell hc]
    rfl
  · rw [threeOperand_of_first_not_readable ha, settle_error]
  · rw [threeOperand_of_second_not_readable ha hb, settle_error]
  · rw [threeOperand_of_readable ha hb, writeParam_of_no_address hd]
    rfl
  · rw [threeOperand_of_readable ha hb, writeParam_of_address hd, memWrite_of_not_hasCell hc]
    rfl

/-- R81, R97: the mode digits of three parameters stand at the hundreds, thousands and ten thousands. -/
theorem modeDigits_three (a b out : Param) :
    modeDigits 1 [a, b, out] = 100 * a.mode.digit + 1000 * b.mode.digit + 10000 * out.mode.digit := by
  simp only [modeDigits]
  omega

/-- An instruction with the opcode `op` and the parameters a, b, out has the F3 encoding of `op`. -/
theorem threeOperandEncoding_of_params {ins : Param → Param → Param → Instr} {op : Nat}
    (hop : ∀ a b out, (ins a b out).opcode = op) (hparams : ∀ a b out, (ins a b out).params = [a, b, out]) :
    ThreeOperandEncoding ins op := by
  intro a b out
  simp only [encode, Instr.word, hop, hparams, modeDigits_three, ← Nat.add_assoc, List.map]

/-- Settles O25: ADD is the F3 instruction of opcode 1 whose result is the wrapped sum. -/
theorem addRule : Obligations.AddRule :=
  ⟨threeOperandEncoding_of_params (fun _ _ _ => rfl) (fun _ _ _ => rfl),
    threeOperandRule_of_action (f := sumValue) (fun _ _ _ _ => rfl)⟩

/-- Settles O26: MUL is the F3 instruction of opcode 2 whose result is the wrapped product. -/
theorem multiplyRule : Obligations.MultiplyRule :=
  ⟨threeOperandEncoding_of_params (fun _ _ _ => rfl) (fun _ _ _ => rfl),
    threeOperandRule_of_action (f := productValue) (fun _ _ _ _ => rfl)⟩

end Sys2Proof.Machine

/-! SUPPORT and the proofs of O29 and O30 (`42_io.md` rules R150 and R151). The encoding of an instruction with one
parameter, Input by its queue, Output by its operand, and the Signal of a suspended instance. -/

namespace Sys2Proof.Machine

/-- R82, R97: an instruction with one parameter is its word `AOO` and the raw operand. -/
theorem encode_of_one_param {i : Instr} {p : Param} (hp : i.params = [p]) :
    encode i = [BitVec.ofNat 64 (i.opcode + 100 * p.mode.digit), p.raw] := by
  have digits : modeDigits 1 [p] = 100 * p.mode.digit := by
    simp only [modeDigits]
    omega
  simp only [encode, Instr.word, hp, digits, List.map]

theorem takeInput_of_nil {s : State} (hq : s.inq = []) (out : Param) : takeInput out s = .error .inputUnderflow := by
  simp only [takeInput, hq]

/-- With INQ not empty, Input is its write; the front leaves INQ only if the write completes. -/
theorem takeInput_of_cons {s : State} {v : Word} {rest : List Word} (hq : s.inq = v :: rest) (out : Param) :
    takeInput out s = (writeParam out v s).map (fun t => (advance 1 (t.setInq rest), .noEvent)) := by
  simp only [takeInput, hq]
  rfl

/-- R150: a fault of the write, whatever the value, is Input's fault once INQ is not empty. -/
theorem exec_input_of_write_error {out : Param} {s : State} {f : Fault} (hq : s.inq ≠ [])
    (hw : ∀ v, writeParam out v s = .error f) : exec (.input out) s = .next (takeFault f s) := by
  obtain ⟨v, rest, hcons⟩ := List.exists_cons_of_ne_nil hq
  have haction : action (.input out) s = .error f := by
    rw [action, takeInput_of_cons hcons, hw]
    rfl
  rw [exec_eq_settle, haction, settle_error]

/-- Settles O29: the queue test decides first, then the write of the front. -/
theorem inputRule : Obligations.InputRule := by
  intro out s
  refine ⟨encode_of_one_param rfl, fun v rest d hq hd hc => ?_, fun hq => ?_, fun hq hd => ?_, fun d hq hd hc => ?_⟩
  · rw [exec_eq_settle, action, takeInput_of_cons hq, writeParam_of_address hd, memWrite_of_hasCell hc]
    rfl
  · rw [exec_eq_settle, action, takeInput_of_nil hq, settle_error]
  · exact exec_input_of_write_error hq (writeParam_of_no_address hd)
  · exact exec_input_of_write_error hq fun v => (writeParam_of_address hd v).trans (memWrite_of_not_hasCell hc v)

/-- R191: the Signal of a suspended instance is Output of the newest value of LOG. -/
theorem signalOf_of_suspended {s : State} {l : List Word} {v : Word} (hs : s.status = .suspended)
    (hl : s.log = l ++ [v]) : signalOf s = .output v := by
  simp only [signalOf, hs, lastOutput, hl, List.getLastD_concat]

theorem giveOutput_of_readable {a : Param} {s : State} (ha : Readable a s) :
    giveOutput a s = .ok (advance 1 (s.setLog (s.log ++ [operandValue a s])), .output (operandValue a s)) := by
  simp only [giveOutput, readParam_of_readable ha]
  rfl

theorem giveOutput_of_not_readable {a : Param} {s : State} (ha : ¬ Readable a s) :
    giveOutput a s = .error .addressOutOfBounds := by
  simp only [giveOutput, readParam_of_not_readable ha]
  rfl

/-- Settles O30: the operand is readable or not; the value appended to LOG is the one the Signal reads off it. -/
theorem outputRule : Obligations.OutputRule := by
  intro a s
  refine ⟨encode_of_one_param rfl, fun ha => ⟨_, ?_, rfl, signalOf_of_suspended rfl rfl⟩, fun ha => ?_⟩
  · rw [exec_eq_settle, action, giveOutput_of_readable ha, settle_ok]
    rfl
  · rw [exec_eq_settle, action, giveOutput_of_not_readable ha, settle_error]

end Sys2Proof.Machine

/-! SUPPORT and the proofs of O31 and O32 (`43_jumps.md` rules R160 to R162). The rule and the encoding of a jump, for
every instruction whose action is `conditionalJump test` and whose parameters are a and b; JNZ and JZ are the two. -/

namespace Sys2Proof.Machine

/-- R82, R97: an instruction with two parameters is its word `BAOO` and the two raw operands. -/
theorem encode_of_two_params {i : Instr} {p q : Param} (hp : i.params = [p, q]) :
    encode i = [BitVec.ofNat 64 (i.opcode + 100 * p.mode.digit + 1000 * q.mode.digit), p.raw, q.raw] := by
  have digits : modeDigits 1 [p, q] = 100 * p.mode.digit + 1000 * q.mode.digit := by
    simp only [modeDigits]
    omega
  simp only [encode, Instr.word, hp, digits, ← Nat.add_assoc, List.map]

theorem jumpTo_of_nonneg {t : Word} (ht : 0 ≤ t.toInt) (s : State) :
    jumpTo t s = .ok (s.setPc t.toInt.toNat, .noEvent) :=
  if_neg (Int.not_lt.mpr ht)

theorem jumpTo_of_neg {t : Word} (ht : t.toInt < 0) (s : State) : jumpTo t s = .error .addressOutOfBounds :=
  if_pos ht

theorem conditionalJump_of_not_readable {a : Param} {s : State} (ha : ¬ Readable a s) (test : Word → Bool)
    (b : Param) : conditionalJump test a b s = .error .addressOutOfBounds := by
  simp only [conditionalJump, readParam_of_not_readable ha]
  rfl

/-- R162: a jump that is not taken advances past two operand words, whatever b is. -/
theorem conditionalJump_of_not_taken {test : Word → Bool} {a : Param} {s : State} (ha : Readable a s)
    (ht : ¬ test (operandValue a s) = true) (b : Param) :
    conditionalJump test a b s = .ok (advance 2 s, .noEvent) := by
  simp only [conditionalJump, readParam_of_readable ha, bind, Except.bind, if_neg ht]
  rfl

/-- A jump that is taken is the read of b and the write of pc. -/
theorem conditionalJump_of_taken {test : Word → Bool} {a : Param} {s : State} (ha : Readable a s)
    (ht : test (operandValue a s) = true) (b : Param) :
    conditionalJump test a b s = (readParam b s).bind (fun t => jumpTo t s) := by
  simp only [conditionalJump, readParam_of_readable ha, bind, Except.bind, if_pos ht]

/-- An instruction whose action is `conditionalJump test` obeys the jump rule with the condition that `test` decides. -/
theorem jumpRule_of_action {ins : Param → Param → Instr} {test : Word → Bool} {taken : Word → Prop}
    (haction : ∀ a b s, action (ins a b) s = conditionalJump test a b s)
    (htest : ∀ v, test v = true ↔ taken v) : JumpRule ins taken := by
  intro a b s
  rw [exec_eq_settle, haction, ← htest]
  refine ⟨fun ha ht => ?_, fun ha ht hb hpos => ?_, fun ha => ?_, fun ha ht hb => ?_, fun ha ht hb hneg => ?_⟩
  · rw [conditionalJump_of_not_taken ha ht]
    rfl
  · rw [conditionalJump_of_taken ha ht, readParam_of_readable hb, Except.bind, jumpTo_of_nonneg hpos]
    rfl
  · rw [conditionalJump_of_not_readable ha, settle_error]
  · rw [conditionalJump_of_taken ha ht, readParam_of_not_readable hb]
    rfl
  · rw [conditionalJump_of_taken ha ht, readParam_of_readable hb, Except.bind, jumpTo_of_neg hneg, settle_error]

/-- A cell is 0 exactly when its signed value is (R8). -/
theorem toInt_eq_zero_iff (v : Word) : v.toInt = 0 ↔ v = 0 := BitVec.toInt_inj (y := 0)

/-- R161: "false" is exactly the signed value 0. -/
theorem zeroValue_iff (v : Word) : zeroValue v = true ↔ v.toInt = 0 := by
  rw [zeroValue, decide_eq_true_iff, toInt_eq_zero_iff]

/-- R160: "true" is every other signed value, the negative ones included. -/
theorem nonzeroValue_iff (v : Word) : nonzeroValue v = true ↔ v.toInt ≠ 0 := by
  rw [nonzeroValue, decide_eq_true_iff, ne_eq, ne_eq, toInt_eq_zero_iff]

/-- Settles O31: JNZ is the jump of opcode 5 that is taken when the value is not 0. -/
theorem jumpIfTrueRule : Obligations.JumpIfTrueRule :=
  ⟨fun _ _ => encode_of_two_params rfl, jumpRule_of_action (fun _ _ _ => rfl) nonzeroValue_iff⟩

/-- Settles O32: JZ is the jump of opcode 6 that is taken when the value is 0. -/
theorem jumpIfFalseRule : Obligations.JumpIfFalseRule :=
  ⟨fun _ _ => encode_of_two_params rfl, jumpRule_of_action (fun _ _ _ => rfl) zeroValue_iff⟩

end Sys2Proof.Machine

/-! SUPPORT and the proofs of O27 and O28 (`44_compare.md` rules R170 and R171). What the two comparisons write, said
of the exact signed values; the F3 rule and encoding are those of ADD and MUL. -/

namespace Sys2Proof.Machine

/-- The cell of a test is 1 exactly when the test holds, and 0 otherwise (R170, R171). -/
theorem truthCell_decide (p : Prop) [Decidable p] : truthCell (decide p) = if p then 1 else 0 := by
  by_cases hp : p <;> simp [truthCell, hp]

/-- R170: LT's result compares the signed values. -/
theorem lessValue_eq : lessValue = fun va vb => if va.toInt < vb.toInt then 1 else 0 := by
  funext va vb
  exact truthCell_decide (va.toInt < vb.toInt)

/-- R171: equality of the cells is equality of their signed values, since a cell is its signed value. -/
theorem equalValue_eq : equalValue = fun va vb => if va.toInt = vb.toInt then 1 else 0 := by
  funext va vb
  simp only [equalValue, sameValue, truthCell_decide, BitVec.toInt_inj]

/-- Settles O27: LT is the F3 instruction of opcode 7 whose result is the signed comparison. -/
theorem lessThanRule : Obligations.LessThanRule :=
  ⟨threeOperandEncoding_of_params (fun _ _ _ => rfl) (fun _ _ _ => rfl),
    lessValue_eq ▸ threeOperandRule_of_action (f := lessValue) (fun _ _ _ _ => rfl)⟩

/-- Settles O28: EQ is the F3 instruction of opcode 8 whose result is the equality of the signed values. -/
theorem equalsRule : Obligations.EqualsRule :=
  ⟨threeOperandEncoding_of_params (fun _ _ _ => rfl) (fun _ _ _ => rfl),
    equalValue_eq ▸ threeOperandRule_of_action (f := equalValue) (fun _ _ _ _ => rfl)⟩

end Sys2Proof.Machine

/-! SUPPORT and the proofs of O9 to O14 (`30_encoding.md` rules R80 to R97). A word decodes to a head exactly when its
digits in use are the head's own; the operand words then give the instruction of that head and no other. -/

namespace Sys2Proof

/-! ### The two maps of the decoder and their inverses -/

/-- The value of an opcode in the two low digits of a word (R86). -/
def Opcode.value : Opcode → Nat
  | .f3 .add => 1
  | .f3 .mul => 2
  | .f3 .lt => 7
  | .f3 .eq => 8
  | .f2 .jnz => 5
  | .f2 .jz => 6
  | .f1 .input => 3
  | .f1 .output => 4
  | .f1 .arb => 9
  | .f0 => 99

theorem opcodeOf_value (op : Opcode) : opcodeOf (op.value) = some op := by
  rcases op with (_ | _ | _ | _) | (_ | _) | (_ | _ | _) | _ <;> rfl

theorem opcodeOf_eq_some_iff {n : Nat} {op : Opcode} : opcodeOf n = some op ↔ n = op.value := by
  refine ⟨fun h => ?_, fun h => h ▸ opcodeOf_value op⟩
  unfold opcodeOf at h
  split at h <;> simp_all <;> subst h <;> rfl

theorem Opcode.value_lt (op : Opcode) : op.value < 100 := by
  rcases op with (_ | _ | _ | _) | (_ | _) | (_ | _ | _) | _ <;> decide

theorem modeOf_eq_some_iff {d : Nat} {m : Mode} : modeOf d = some m ↔ d = m.digit := by
  refine ⟨fun h => ?_, fun h => by subst h; cases m <;> rfl⟩
  unfold modeOf at h
  split at h <;> simp_all <;> subst h <;> rfl

theorem decodeMode_eq_ok_iff {w k : Nat} {m : Mode} : decodeMode w k = .ok m ↔ digit w (k + 1) = m.digit := by
  rw [← modeOf_eq_some_iff, decodeMode]
  split <;> simp_all

/-- R83, R89: a mode digit selects a mode exactly when it is 0, 1 or 2. -/
theorem exists_decodeMode_ok_iff {w k : Nat} : (∃ m, decodeMode w k = .ok m) ↔ digit w (k + 1) ≤ 2 := by
  simp only [decodeMode_eq_ok_iff]
  refine ⟨fun ⟨m, hm⟩ => hm ▸ m.digit_le_two, fun h => ?_⟩
  have hd : digit w (k + 1) = 0 ∨ digit w (k + 1) = 1 ∨ digit w (k + 1) = 2 := by omega
  rcases hd with hd | hd | hd
  · exact ⟨.position, hd⟩
  · exact ⟨.immediate, hd⟩
  · exact ⟨.relative, hd⟩

/-- A sequence of two checks passes exactly when the first passes and then the second. -/
theorem except_bind_eq_ok_iff {ε α β : Type} {x : Except ε α} {f : α → Except ε β} {b : β} :
    x >>= f = .ok b ↔ ∃ a, x = .ok a ∧ f a = .ok b := by
  cases x <;> simp [bind, Except.bind]

/-! ### Which words decode -/

/-- The mode digits of `w` at the places of a head's parameters are those of its modes (R81, R83). -/
def Head.DigitsIn (w : Nat) : Head → Prop
  | .f3 _ m1 m2 m3 => digit w 2 = m1.digit ∧ digit w 3 = m2.digit ∧ digit w 4 = m3.digit
  | .f2 _ m1 m2 => digit w 2 = m1.digit ∧ digit w 3 = m2.digit
  | .f1 _ m1 => digit w 2 = m1.digit
  | .f0 => True

/-- R114: an opcode's mode digits decode to its heads with those digits. -/
theorem decodeModes_eq_ok_iff {w : Nat} {op : Opcode} {h : Head} :
    decodeModes w op = .ok h ↔ op = h.opcode ∧ h.DigitsIn w := by
  constructor
  · intro hok
    cases op <;>
      simp only [decodeModes, except_bind_eq_ok_iff, decodeMode_eq_ok_iff, pure, Except.pure, Except.ok.injEq] at hok
    case f3 op => obtain ⟨m1, h1, m2, h2, m3, h3, rfl⟩ := hok; exact ⟨rfl, h1, h2, h3⟩
    case f2 op => obtain ⟨m1, h1, m2, h2, rfl⟩ := hok; exact ⟨rfl, h1, h2⟩
    case f1 op => obtain ⟨m1, h1, rfl⟩ := hok; exact ⟨rfl, h1⟩
    case f0 => subst hok; exact ⟨rfl, trivial⟩
  · rintro ⟨rfl, hd⟩
    cases h <;> simp_all [Head.DigitsIn, Head.opcode, decodeModes, ← decodeMode_eq_ok_iff, bind, Except.bind, pure,
      Except.pure]

theorem decodeHead_eq_decodeModes {w : Word} {op : Opcode} (hw : 0 ≤ w.toInt)
    (hop : opcodeOf (w.toNat % 100) = some op) : decodeHead w = decodeModes w.toNat op := by
  simp [decodeHead, hop, Int.not_lt.mpr hw]

/-- R88, R87, R114: the three checks of an instruction word. -/
theorem decodeHead_eq_ok_iff {w : Word} {h : Head} :
    decodeHead w = .ok h ↔
      0 ≤ w.toInt ∧ opcodeOf (w.toNat % 100) = some h.opcode ∧ h.DigitsIn w.toNat := by
  by_cases hw : 0 ≤ w.toInt
  · cases hop : opcodeOf (w.toNat % 100) with
    | none => simp [Machine.decodeHead_of_illegal_opcode hw hop]
    | some op => simp [decodeHead_eq_decodeModes hw hop, decodeModes_eq_ok_iff, hw]
  · simp [decodeHead, hw, Int.not_le.mp hw]

theorem Head.digitsIn_le_two {w : Nat} {h : Head} (hd : h.DigitsIn w) {k : Nat} (h1 : 1 ≤ k)
    (hk : k ≤ h.opcode.nparams) : digit w (k + 1) ≤ 2 := by
  have le_two {d : Nat} {m : Mode} (e : d = m.digit) : d ≤ 2 := e ▸ m.digit_le_two
  cases h with
  | f3 op m1 m2 m3 =>
    obtain ⟨d1, d2, d3⟩ := hd
    have hk : k = 1 ∨ k = 2 ∨ k = 3 := by simp only [Head.opcode, Opcode.nparams] at hk; omega
    rcases hk with rfl | rfl | rfl
    · exact le_two d1
    · exact le_two d2
    · exact le_two d3
  | f2 op m1 m2 =>
    obtain ⟨d1, d2⟩ := hd
    have hk : k = 1 ∨ k = 2 := by simp only [Head.opcode, Opcode.nparams] at hk; omega
    rcases hk with rfl | rfl
    · exact le_two d1
    · exact le_two d2
  | f1 op m1 =>
    have hk : k = 1 := by simp only [Head.opcode, Opcode.nparams] at hk; omega
    subst hk
    exact le_two hd
  | f0 => simp only [Head.opcode, Opcode.nparams] at hk; omega

/-- R114: an opcode's mode digits decode exactly when each parameter it has has a digit of at most 2. -/
theorem exists_decodeModes_ok_iff {w : Nat} {op : Opcode} :
    (∃ h, decodeModes w op = .ok h) ↔ ∀ k, 1 ≤ k → k ≤ op.nparams → digit w (k + 1) ≤ 2 := by
  refine ⟨fun ⟨h, hok⟩ k h1 hk => ?_, fun hle => ?_⟩
  · obtain ⟨rfl, hd⟩ := decodeModes_eq_ok_iff.mp hok
    exact Head.digitsIn_le_two hd h1 hk
  · have mode (k : Nat) (h1 : 1 ≤ k) (hk : k ≤ op.nparams) := exists_decodeMode_ok_iff.mpr (hle k h1 hk)
    cases op with
    | f3 op =>
      replace mode : ∀ k, 1 ≤ k → k ≤ 3 → _ := mode
      obtain ⟨m1, e1⟩ := mode 1 (by decide) (by decide)
      obtain ⟨m2, e2⟩ := mode 2 (by decide) (by decide)
      obtain ⟨m3, e3⟩ := mode 3 (by decide) (by decide)
      exact ⟨.f3 op m1 m2 m3, by simp only [decodeModes, e1, e2, e3]; rfl⟩
    | f2 op =>
      replace mode : ∀ k, 1 ≤ k → k ≤ 2 → _ := mode
      obtain ⟨m1, e1⟩ := mode 1 (by decide) (by decide)
      obtain ⟨m2, e2⟩ := mode 2 (by decide) (by decide)
      exact ⟨.f2 op m1 m2, by simp only [decodeModes, e1, e2]; rfl⟩
    | f1 op =>
      replace mode : ∀ k, 1 ≤ k → k ≤ 1 → _ := mode
      obtain ⟨m1, e1⟩ := mode 1 (by decide) (by decide)
      exact ⟨.f1 op m1, by simp only [decodeModes, e1]; rfl⟩
    | f0 => exact ⟨.f0, rfl⟩

/-- An opcode looks at the mode digits of its own parameters and at no other (R90). -/
theorem decodeModes_congr {v w : Nat} {op : Opcode}
    (h : ∀ k, 1 ≤ k → k ≤ op.nparams → digit v (k + 1) = digit w (k + 1)) : decodeModes v op = decodeModes w op := by
  have mode (k : Nat) (h1 : 1 ≤ k) (hk : k ≤ op.nparams) : decodeMode v k = decodeMode w k := by
    simp only [decodeMode, h k h1 hk]
  cases op with
  | f3 op =>
    replace mode : ∀ k, 1 ≤ k → k ≤ 3 → _ := mode
    simp only [decodeModes, mode 1 (by decide) (by decide), mode 2 (by decide) (by decide),
      mode 3 (by decide) (by decide)]
  | f2 op =>
    replace mode : ∀ k, 1 ≤ k → k ≤ 2 → _ := mode
    simp only [decodeModes, mode 1 (by decide) (by decide), mode 2 (by decide) (by decide)]
  | f1 op =>
    replace mode : ∀ k, 1 ≤ k → k ≤ 1 → _ := mode
    simp only [decodeModes, mode 1 (by decide) (by decide)]
  | f0 => rfl

/-- Two numbers with the same low `n` decimal digits have the same digit at each place below `n`. -/
theorem digit_congr {v w n p : Nat} (h : v % 10 ^ n = w % 10 ^ n) (hp : p < n) : digit v p = digit w p := by
  have low (x : Nat) : digit x p = x % 10 ^ (p + 1) / 10 ^ p := by rw [digit, pow_succ, Nat.mod_mul_right_div_self]
  have hlow : v % 10 ^ (p + 1) = w % 10 ^ (p + 1) := Nat.ModEq.of_dvd (pow_dvd_pow 10 hp) h
  rw [low, low, hlow]

/-! ### The instruction of a head and its operand words -/

/-- The number the digits in use make: the canonical instruction word of a head (R81, R97). -/
def Head.word (h : Head) : Nat :=
  h.opcode.value +
    match h with
    | .f3 _ m1 m2 m3 => 100 * m1.digit + 1000 * m2.digit + 10000 * m3.digit
    | .f2 _ m1 m2 => 100 * m1.digit + 1000 * m2.digit
    | .f1 _ m1 => 100 * m1.digit
    | .f0 => 0

/-- R81, R90: the digits a head looks at, as one number. -/
theorem digitsIn_iff_mod_eq_word {w : Nat} {h : Head} :
    w % 100 = h.opcode.value ∧ h.DigitsIn w ↔ w % 10 ^ (2 + h.opcode.nparams) = h.word := by
  have hv := Opcode.value_lt h.opcode
  cases h with
  | f3 op m1 m2 m3 =>
    have := m1.digit_le_two
    have := m2.digit_le_two
    have := m3.digit_le_two
    simp only [Head.DigitsIn, digit, Head.word, Head.opcode, Opcode.nparams] at *
    omega
  | f2 op m1 m2 =>
    have := m1.digit_le_two
    have := m2.digit_le_two
    simp only [Head.DigitsIn, digit, Head.word, Head.opcode, Opcode.nparams] at *
    omega
  | f1 op m1 =>
    have := m1.digit_le_two
    simp only [Head.DigitsIn, digit, Head.word, Head.opcode, Opcode.nparams] at *
    omega
  | f0 => simp [Head.DigitsIn, Head.word, Head.opcode, Opcode.nparams]

/-- What the instruction word of an instruction says: its opcode and the modes of its parameters. -/
def Instr.head : Instr → Head
  | .add a b out => .f3 .add a.mode b.mode out.mode
  | .mul a b out => .f3 .mul a.mode b.mode out.mode
  | .input out => .f1 .input out.mode
  | .output a => .f1 .output a.mode
  | .jnz a b => .f2 .jnz a.mode b.mode
  | .jz a b => .f2 .jz a.mode b.mode
  | .lt a b out => .f3 .lt a.mode b.mode out.mode
  | .eq a b out => .f3 .eq a.mode b.mode out.mode
  | .arb a => .f1 .arb a.mode
  | .hlt => .f0

@[simp] theorem Param.mode_param_raw (p : Param) : p.mode.param p.raw = p := by cases p <;> rfl

@[simp] theorem Mode.mode_param (m : Mode) (r : Word) : (m.param r).mode = m := by cases m <;> rfl

theorem nparams_head (i : Instr) : i.head.opcode.nparams = i.params.length := by cases i <;> rfl

theorem word_head (i : Instr) : i.head.word = i.word := by
  cases i <;>
    simp [Head.word, Instr.head, Instr.word, Instr.params, Instr.opcode, Head.opcode, Opcode.value, modeDigits] <;>
    omega

theorem head_instr_f3 (op : OpF3) (a b out : Param) :
    (op.instr a b out).head = .f3 op a.mode b.mode out.mode := by cases op <;> rfl

theorem head_instr_f2 (op : OpF2) (a b : Param) : (op.instr a b).head = .f2 op a.mode b.mode := by
  cases op <;> rfl

theorem head_instr_f1 (op : OpF1) (a : Param) : (op.instr a).head = .f1 op a.mode := by cases op <;> rfl

/-- R84, R116: the operand words taken for a head are the raw operands of an instruction with that head. -/
theorem takeOperands_eq_ok_iff {h : Head} {cells rest : List Word} {i : Instr} :
    takeOperands h cells = .ok (i, rest) ↔ h = i.head ∧ cells = i.params.map Param.raw ++ rest := by
  constructor
  · intro hok
    unfold takeOperands at hok
    split at hok <;> cases hok
    · simp [head_instr_f3]
    · simp [head_instr_f2]
    · simp [head_instr_f1]
    · simp [Instr.head, Instr.params]
  · rintro ⟨rfl, rfl⟩
    cases i <;> simp [Instr.head, Instr.params, takeOperands, OpF3.instr, OpF2.instr, OpF1.instr]

/-- R80 to R84: cells decode to an instruction exactly when they are a word with its head, its raw operands, and the
rest. -/
theorem decode_eq_ok_iff {cells rest : List Word} {i : Instr} :
    decode cells = .ok (i, rest) ↔
      ∃ w, cells = w :: (i.params.map Param.raw ++ rest) ∧ decodeHead w = .ok i.head := by
  cases cells with
  | nil => simp [decode]
  | cons w cells => cases hw : decodeHead w <;> simp [decode, hw, takeOperands_eq_ok_iff, and_comm]

/-- R81, R90: a word has the head of an instruction exactly when its digits in use are the canonical word. -/
theorem decodeHead_eq_ok_head_iff {w : Word} {i : Instr} :
    decodeHead w = .ok i.head ↔ 0 ≤ w.toInt ∧ w.toNat % 10 ^ (2 + i.params.length) = i.word := by
  rw [decodeHead_eq_ok_iff, opcodeOf_eq_some_iff, digitsIn_iff_mod_eq_word, nparams_head, word_head]

end Sys2Proof

/-! The proofs of O9 to O14. -/

namespace Sys2Proof.Machine

/-! ### Which words decode -/

/-- Settles O11: a word that is not negative has an opcode or none; its opcode's mode digits decide the rest. -/
theorem decodableWords : Obligations.DecodableWords := by
  intro w
  constructor
  · rintro ⟨h, hok⟩
    obtain ⟨hw, hop, hd⟩ := decodeHead_eq_ok_iff.mp hok
    refine ⟨hw, h.opcode, hop, ?_, fun k => Head.digitsIn_le_two hd⟩
    by_contra hnot
    cases hop.symm.trans ((opcodeOf_eq_none_iff _).mpr hnot)
  · rintro ⟨hw, op, hop, -, hle⟩
    rw [decodeHead_eq_decodeModes hw hop]
    exact exists_decodeModes_ok_iff.mpr hle

/-- Settles O12: the words agree in the opcode, and in each mode digit that opcode looks at. -/
theorem unexaminedDigitsIgnored : Obligations.UnexaminedDigitsIgnored := by
  intro v w op hv hw hop hdigits
  have hop' : v.toNat % 100 = w.toNat % 100 := Nat.ModEq.of_dvd (pow_dvd_pow 10 (Nat.le_add_right 2 _)) hdigits
  rw [decodeHead_eq_decodeModes hw hop, decodeHead_eq_decodeModes hv (hop' ▸ hop)]
  exact decodeModes_congr fun k _ hk => digit_congr hdigits (by omega)

/-! ### Encodings and listings -/

/-- R97: the canonical word names the opcode and the modes and has no other digit. -/
theorem canonicalWord (i : Instr) : Laws.CanonicalWord.Statement i := by
  cases i with
  | add a b out => exact Laws.CanonicalWord.add a b out
  | mul a b out => exact Laws.CanonicalWord.mul a b out
  | input out => exact Laws.CanonicalWord.input out
  | output a => exact Laws.CanonicalWord.output a
  | jnz a b => exact Laws.CanonicalWord.jnz a b
  | jz a b => exact Laws.CanonicalWord.jz a b
  | lt a b out => exact Laws.CanonicalWord.lt a b out
  | eq a b out => exact Laws.CanonicalWord.eq a b out
  | arb a => exact Laws.CanonicalWord.arb a
  | hlt => exact Laws.CanonicalWord.hlt

/-- Settles O9: the canonical word is small, so it is not negative and is its own digits in use. -/
theorem decodeOfEncode : Obligations.DecodeOfEncode := by
  intro i rest
  obtain ⟨-, hle, -, hlt, -⟩ := canonicalWord i
  refine decode_eq_ok_iff.mpr ⟨BitVec.ofNat 64 i.word, rfl, decodeHead_eq_ok_head_iff.mpr ⟨?_, ?_⟩⟩
  · rw [BitVec.toInt_eq_toNat_of_lt (by rw [BitVec.toNat_ofNat]; omega)]
    exact Int.natCast_nonneg _
  · rw [BitVec.toNat_ofNat, Nat.mod_eq_of_lt (a := i.word) (by omega), Nat.mod_eq_of_lt hlt]

/-- Settles O10: the word, the raw operands and the rest are those of `decode_eq_ok_iff`. -/
theorem decodedCells : Obligations.DecodedCells := by
  intro cells rest i hok
  obtain ⟨w, rfl, hhead⟩ := decode_eq_ok_iff.mp hok
  obtain ⟨hw, hword⟩ := decodeHead_eq_ok_head_iff.mp hhead
  refine ⟨w, rfl, hw, ?_, hword⟩
  simp only [Instr.length, List.length_cons, List.length_append, List.length_map]
  omega

/-- Settles O13: ten of the words are canonical ones, so each is its instruction's encoding. -/
theorem writtenOutWordsDecode : Obligations.WrittenOutWordsDecode :=
  ⟨decodeOfEncode (.add (.position 5) (.position 6) (.position 7)) [],
    decodeOfEncode (.mul (.position 4) (.immediate 3) (.position 4)) [],
    decodeOfEncode (.add (.relative 1) (.relative 2) (.relative 3)) [],
    decodeOfEncode (.input (.relative 2)) [],
    decodeOfEncode (.output (.relative (-1))) [],
    decodeOfEncode (.jnz (.immediate 1) (.immediate 7)) [],
    decodeOfEncode (.jz (.position 15) (.immediate 14)) [],
    decodeOfEncode (.lt (.immediate 1) (.immediate 2) (.immediate 3)) [],
    decodeOfEncode (.eq (.position 5) (.position 6) (.position 0)) [],
    decodeOfEncode (.arb (.immediate 19)) [],
    decodeOfEncode .hlt []⟩

/-- R93: a literal that is a cell's signed value stands for that cell. -/
theorem value_literal_toInt (labels : List (String × Nat)) (r : Word) :
    AsmNumber.value labels (.literal r.toInt) = some r := by
  have hlo := BitVec.le_toInt r
  have hhi := BitVec.toInt_lt (x := r)
  rw [AsmNumber.value, if_pos, BitVec.ofInt_toInt]
  simp only [intMin, intMax]
  omega

theorem param_operandOf (labels : List (String × Nat)) (p : Param) : (operandOf p).param labels = some p := by
  cases p <;> simp [operandOf, AsmOperand.param, value_literal_toInt]

theorem emit_listing (labels : List (String × Nat)) (i : Instr) : (listing i).emit labels = some (encode i) := by
  cases i <;> simp [listing, AsmLine.emit, param_operandOf]

/-- Settles O14: line by line, under whatever label table the first pass made. -/
theorem listingAssembles : Obligations.ListingAssembles := by
  intro is
  unfold assemble
  generalize labelTable 0 (is.map listing) = labels
  induction is with
  | nil => rfl
  | cons i is ih => simp [emitAll, emit_listing, ih]

end Sys2Proof.Machine

/-! SUPPORT and the proofs of O15, O16 and O19 (`40_fetch_decode_resolve.md` rules R111 to R116). The machine's fetch is
the decoder on the cells at pc; a missing cell and a bad word differ in their fault only. -/

namespace Sys2Proof.Machine

/-- A read answers a cell, or AddressOutOfBounds where there is none. -/
def cellOrFault : Option Word → Except Fault Word
  | some v => .ok v
  | none => .error .addressOutOfBounds

/-- The fault the machine raises where the decoder rejects: AddressOutOfBounds for a missing cell (R111, R115),
DecodeError for what the word says (R87 to R89). -/
def rejectFault : DecodeReject → Fault
  | .noInstructionWord => .addressOutOfBounds
  | .missingOperandWord => .addressOutOfBounds
  | .negativeWord => .decodeError
  | .illegalOpcode _ => .decodeError
  | .illegalMode _ _ => .decodeError

theorem rejectFault_eq (e : DecodeReject) :
    rejectFault e =
      if e = .noInstructionWord ∨ e = .missingOperandWord then .addressOutOfBounds else .decodeError := by
  cases e <;> rfl

/-- The window holds the cells at pc and after it, as reads see them (R80). -/
theorem memRead_eq_window {s : State} {n k : Nat} (hk : k < n) :
    memRead ((s.pc : Int) + k) s = cellOrFault (s.window n)[k]? := by
  by_cases h : s.pc + k < s.cap
  · rw [memRead_pc_add_of_lt h, State.window, List.getElem?_map, List.getElem?_range (by omega)]
    rfl
  · rw [memRead_pc_add_of_le (by omega), State.window, List.getElem?_map,
      List.getElem?_eq_none (by rw [List.length_range]; omega)]
    rfl

/-- A sequence of two checks rejects for the first, or for the second after the first passed. -/
theorem except_bind_eq_error_iff {ε α β : Type} {x : Except ε α} {f : α → Except ε β} {e : ε} :
    x >>= f = .error e ↔ x = .error e ∨ ∃ a, x = .ok a ∧ f a = .error e := by
  cases x <;> simp [bind, Except.bind]

/-- R114: mode digits are rejected for one of them. -/
theorem decodeModes_error {w : Nat} {op : Opcode} {e : DecodeReject} (h : decodeModes w op = .error e) :
    ∃ k, decodeMode w k = .error e := by
  cases op <;>
    simp only [decodeModes, except_bind_eq_error_iff, pure, Except.pure, reduceCtorEq, and_false, exists_false,
      or_false] at h
  case f3 => rcases h with h | ⟨_, _, h | ⟨_, _, h⟩⟩ <;> exact ⟨_, h⟩
  case f2 => rcases h with h | ⟨_, _, h⟩ <;> exact ⟨_, h⟩
  case f1 => exact ⟨_, h⟩

/-- R87 to R89: whatever the instruction word is rejected for, the fault is DecodeError. -/
theorem rejectFault_of_decodeHead_error {w : Word} {e : DecodeReject} (h : decodeHead w = .error e) :
    rejectFault e = .decodeError := by
  unfold decodeHead at h
  split at h
  · cases h; rfl
  · split at h
    · obtain ⟨k, hk⟩ := decodeModes_error h
      unfold decodeMode at hk
      split at hk <;> cases hk
      rfl
    · cases h; rfl

/-- R115, R116: the operand words fetched are those the decoder takes from the cells after pc. -/
theorem fetchOperands_eq_takeOperands {s : State} {w : Word} {cells : List Word} (h : Head)
    (hcells : ∀ k : Nat, k < 4 → memRead ((s.pc : Int) + k) s = cellOrFault (w :: cells)[k]?) :
    fetchOperands h s = ((takeOperands h cells).map Prod.fst).mapError rejectFault := by
  have h1 : memRead (s.pc + 1) s = _ := hcells 1 (by decide)
  have h2 : memRead (s.pc + 2) s = _ := hcells 2 (by decide)
  have h3 : memRead (s.pc + 3) s = _ := hcells 3 (by decide)
  cases h with
  | f0 => rfl
  | f1 op m1 => simp only [fetchOperands, h1]; rcases cells with _ | ⟨x, _⟩ <;> rfl
  | f2 op m1 m2 => simp only [fetchOperands, h1, h2]; rcases cells with _ | ⟨x, _ | ⟨y, _⟩⟩ <;> rfl
  | f3 op m1 m2 m3 =>
    simp only [fetchOperands, h1, h2, h3]
    rcases cells with _ | ⟨x, _ | ⟨y, _ | ⟨z, _⟩⟩⟩ <;> rfl

/-- R111 to R116: the fetch is the decoder on the cells at pc. -/
theorem fetch_eq_decode_window (s : State) :
    fetch s = ((decode (s.window 4)).map Prod.fst).mapError rejectFault := by
  have hcells : ∀ k : Nat, k < 4 → memRead ((s.pc : Int) + k) s = cellOrFault (s.window 4)[k]? :=
    fun k hk => memRead_eq_window hk
  have hpc : memRead s.pc s = _ := hcells 0 (by decide)
  cases hw : s.window 4 with
  | nil =>
    rw [hw] at hpc
    exact fetch_of_memRead_error hpc
  | cons w cells =>
    rw [hw] at hpc hcells
    cases hd : decodeHead w with
    | error e =>
      rw [fetch_of_decodeHead_error hpc hd, decode, hd, ← rejectFault_of_decodeHead_error hd]
      rfl
    | ok h => rw [fetch_of_decodeHead_ok hpc hd, fetchOperands_eq_takeOperands h hcells, decode, hd]

/-- Settles O15: the step follows its fetch, which is the decoder's answer; exec does not look at STATUS. -/
theorem stepRunsDecodedInstruction : Obligations.StepRunsDecodedInstruction := by
  intro s i rest hs hdec
  have hfetch : fetch s = .ok i := by rw [fetch_eq_decode_window, hdec]; rfl
  have hstep := step_of_fetch_ok hs hfetch
  exact ⟨hstep.trans (exec_setStatus i s .running).symm, hstep⟩

/-- Settles O16: the step takes the fault of its fetch, which is that of the decoder's reject. -/
theorem stepFaultsWhereNothingDecodes : Obligations.StepFaultsWhereNothingDecodes := by
  intro s e hs hdec
  have hfetch : fetch s = .error (rejectFault e) := by rw [fetch_eq_decode_window, hdec]; rfl
  rw [step_of_fetch_error hs hfetch, rejectFault_eq]

/-- Settles O19: the mode digit is one of those that must be legal, so the word is rejected before any operand word is
fetched. -/
theorem illegalModeRaisesDecodeError : Obligations.IllegalModeRaisesDecodeError := by
  intro s w op k hs hw hpos hop h1 hk hdigit
  cases hd : decodeHead w with
  | error r => exact step_of_decodeHead_error hs hw hd
  | ok h =>
    rw [decodeHead_eq_decodeModes hpos hop] at hd
    have hle := exists_decodeModes_ok_iff.mp ⟨h, hd⟩ k h1 hk
    simp only [digit] at hle
    omega

end Sys2Proof.Machine

/-! SUPPORT and the proofs of O1, O6 to O8 and O24 (`10_state.md`, `20_memory.md`; `00_scope.md` rule R8). -/

namespace Sys2Proof.Machine

/-- Settles O1: LOAD of nothing is within every bound, and no address lies below CAP = 0. -/
theorem powerOnIsEmptyLoad : Obligations.PowerOnIsEmptyLoad := by
  refine ⟨fun capMax s => if_pos (Nat.zero_le capMax), rfl, rfl, rfl, rfl, rfl, rfl, rfl, rfl, fun a => ?_⟩
  refine memRead_of_not_hasCell (not_hasCell_iff.mpr ?_)
  change a < 0 ∨ 0 ≤ a
  omega

/-- Settles O6: a write that succeeds is a write of one cell that exists. -/
theorem readAfterWrite : Obligations.ReadAfterWrite := by
  intro s t d v hwrite
  obtain ⟨hd, rfl⟩ := memWrite_ok_iff.mp hwrite
  refine ⟨fun a ha => memRead_after_write_other hd ha v, fun hwf => ⟨?_, Memory.wf_write hwf _ v⟩⟩
  exact memRead_ok_iff.mpr ⟨hd, (Memory.read_write_same hwf _ v).symm⟩

/-- An address up to the first listed one of a canonical memory is not listed after it. -/
theorem Memory.read_tail_of_le {m : Memory} {a b : Nat} (h : ∀ c ∈ m, b < c.1) (hab : a ≤ b) : m.read a = 0 :=
  Memory.read_unlisted fun c hc => by have := h c hc; omega

/-- Canonical memories that read alike list the same first address. -/
theorem Memory.head_le_of_read_eq {m n : Memory} {a b : Nat} {v u : Word} (hv : v ≠ 0) (hn : ∀ c ∈ n, b < c.1)
    (h : Memory.read ((a, v) :: m) a = Memory.read ((b, u) :: n) a) : b ≤ a := by
  by_contra hlt
  rw [Memory.read_cons, if_pos rfl, Memory.read_cons, if_neg (by omega), Memory.read_tail_of_le hn (by omega)] at h
  exact hv h

/-- Settles O7: the first listed cells agree in address and value, and with them gone the rests read alike. -/
theorem canonicalMemoryUnique : Obligations.CanonicalMemoryUnique := by
  intro m
  induction m with
  | nil =>
    intro n _ hn h
    cases n with
    | nil => rfl
    | cons d n =>
      obtain ⟨b, u⟩ := d
      obtain ⟨hu, -, -⟩ := Memory.wf_cons.mp hn
      exact absurd (by simpa [Memory.read_cons] using (h b).symm) hu
  | cons c m ih =>
    intro n hm hn h
    obtain ⟨a, v⟩ := c
    obtain ⟨hv, hmlt, hm'⟩ := Memory.wf_cons.mp hm
    cases n with
    | nil => exact absurd (by simpa [Memory.read_cons] using h a) hv
    | cons d n =>
      obtain ⟨b, u⟩ := d
      obtain ⟨hu, hnlt, hn'⟩ := Memory.wf_cons.mp hn
      have haddr : a = b := le_antisymm (Memory.head_le_of_read_eq hu hmlt (h b).symm)
        (Memory.head_le_of_read_eq hv hnlt (h a))
      subst haddr
      have hval : v = u := by simpa [Memory.read_cons] using h a
      have hrest : m = n := ih n hm' hn' fun x => by
        by_cases hx : x = a
        · rw [Memory.read_tail_of_le hmlt hx.le, Memory.read_tail_of_le hnlt hx.le]
        · simpa [Memory.read_cons, hx] using h x
      rw [hval, hrest]

/-- Settles O8: wrap64 is the balanced remainder modulo 2^64, and the range holds one value of each class. -/
theorem wrapIsTheCongruentValue : Obligations.WrapIsTheCongruentValue := by
  intro x
  have hrange : intMin ≤ (wrap64 x).toInt ∧ (wrap64 x).toInt ≤ intMax := by
    have hlo := BitVec.le_toInt (wrap64 x)
    have hhi := BitVec.toInt_lt (x := wrap64 x)
    simp only [intMin, intMax]
    omega
  have hmod : (wrap64 x).toInt % 2 ^ 64 = x % 2 ^ 64 := by
    rw [wrap64, BitVec.toInt_ofInt]
    exact Int.bmod_emod
  refine ⟨hrange.1, hrange.2, hmod, fun v hlo hhi hv => ?_⟩
  simp only [intMin, intMax] at hrange hlo hhi
  omega

/-- Settles O24: read and write of a Relative parameter go to the exact sum, where there is no cell. -/
theorem relativeAddressNeverWraps : Obligations.RelativeAddressNeverWraps := fun _ _ v h =>
  ⟨memRead_of_not_hasCell h, memWrite_of_not_hasCell h v⟩

end Sys2Proof.Machine

/-! SUPPORT. What an instruction that completes leaves of each item of the state, and that it completes alike in every
state that holds the same in the items a program can look at (`60_exceptions.md` rule R240). -/

namespace Sys2Proof.Machine

/-! ### Item by item -/

theorem action_ok_mem {i : Instr} {s u : State} {e : Event} (h : action i s = .ok (u, e)) :
    u.mem = s.mem ∨ ∃ d out v, i.writeParam? = some out ∧ effectiveAddress s out = some d ∧ s.HasCell d ∧
      u.mem = s.mem.write d.toNat v := by
  rcases action_ok h with ⟨d, out, v, hout, hd, hc, -, ⟨rfl, -⟩ | ⟨rest, -, -, rfl⟩⟩ | ⟨a, -, -, rfl⟩ |
    ⟨a, b, -, -, rfl | ⟨-, rfl⟩⟩ | ⟨a, -, -, rfl⟩ | ⟨-, -, rfl⟩
  · exact .inr ⟨d, out, v, hout, hd, hc, rfl⟩
  · exact .inr ⟨d, out, v, hout, hd, hc, rfl⟩
  all_goals exact .inl rfl

theorem action_ok_rb {i : Instr} {s u : State} {e : Event} (h : action i s = .ok (u, e)) :
    u.rb = s.rb ∨ ∃ a, i = .arb a := by
  rcases action_ok h with ⟨d, out, v, -, -, -, -, ⟨rfl, -⟩ | ⟨rest, -, -, rfl⟩⟩ | ⟨a, -, -, rfl⟩ |
    ⟨a, b, -, -, rfl | ⟨-, rfl⟩⟩ | ⟨a, hi, -, -⟩ | ⟨-, -, rfl⟩
  case inr.inr.inr.inl => exact .inr ⟨a, hi⟩
  all_goals exact .inl rfl

theorem action_ok_inq {i : Instr} {s u : State} {e : Event} (h : action i s = .ok (u, e)) :
    u.inq = s.inq ∨ ∃ out v, i = .input out ∧ s.inq = v :: u.inq := by
  rcases action_ok h with ⟨d, out, v, -, -, -, -, ⟨rfl, -⟩ | ⟨rest, hi, hq, rfl⟩⟩ | ⟨a, -, -, rfl⟩ |
    ⟨a, b, -, -, rfl | ⟨-, rfl⟩⟩ | ⟨a, -, -, rfl⟩ | ⟨-, -, rfl⟩
  case inl.inr => exact .inr ⟨out, v, hi, hq⟩
  all_goals exact .inl rfl

theorem action_ok_event {i : Instr} {s u : State} {e : Event} (h : action i s = .ok (u, e)) :
    e = .noEvent ∨ (∃ a, i = .output a ∧ e = .output (operandValue a s)) ∨ i = .hlt ∧ e = .halt := by
  rcases action_ok h with ⟨-, -, -, -, -, -, he, -⟩ | ⟨a, hi, he, -⟩ | ⟨-, -, -, he, -⟩ | ⟨-, -, he, -⟩ | ⟨hi, he, -⟩
  · exact .inl he
  · exact .inr (.inl ⟨a, hi, he⟩)
  · exact .inl he
  · exact .inl he
  · exact .inr (.inr ⟨hi, he⟩)

/-- R121, R162: pc moves past the instruction's cells, or to the target of a jump. -/
theorem action_ok_pc {i : Instr} {s u : State} {e : Event} (h : action i s = .ok (u, e)) :
    u.pc = s.pc + i.length ∨
      ∃ a b, (i = .jnz a b ∨ i = .jz a b) ∧ u.pc = (operandValue b s).toInt.toNat := by
  rcases action_ok h with ⟨d, out, v, -, -, -, -, ⟨rfl, -⟩ | ⟨rest, rfl, -, rfl⟩⟩ | ⟨a, rfl, -, rfl⟩ |
    ⟨a, b, hi, -, rfl | ⟨-, rfl⟩⟩ | ⟨a, rfl, -, rfl⟩ | ⟨rfl, -, rfl⟩
  case inl.inl =>
    refine .inl ?_
    simp only [advance_pc, State.setMem_pc, Instr.length]
    omega
  case inr.inr.inl.inl => rcases hi with rfl | rfl <;> exact .inl rfl
  case inr.inr.inl.inr => exact .inr ⟨a, b, hi, rfl⟩
  all_goals exact .inl rfl

/-! ### Completing in another state -/

theorem adjustBase_of_readable {a : Param} {s : State} (ha : Readable a s) :
    adjustBase a s = .ok (advance 1 (s.setRb (wrap64 (s.rb.toInt + (operandValue a s).toInt))), .noEvent) := by
  simp only [adjustBase, readParam_of_readable ha]
  rfl


/-- What an event appends to LOG (R151). -/
def Event.outputs : Event → List Word
  | .noEvent => []
  | .output v => [v]
  | .halt => []

/-- `s` with the items an instruction writes taken from `u`, and the output of its event appended to LOG. -/
def State.withEffect (s u : State) (e : Event) : State :=
  { s with mem := u.mem, pc := u.pc, rb := u.rb, inq := u.inq, log := s.log ++ e.outputs }

@[simp] theorem State.withEffect_mem (s u : State) (e : Event) : (s.withEffect u e).mem = u.mem := rfl
@[simp] theorem State.withEffect_cap (s u : State) (e : Event) : (s.withEffect u e).cap = s.cap := rfl
@[simp] theorem State.withEffect_pc (s u : State) (e : Event) : (s.withEffect u e).pc = u.pc := rfl
@[simp] theorem State.withEffect_rb (s u : State) (e : Event) : (s.withEffect u e).rb = u.rb := rfl
@[simp] theorem State.withEffect_inq (s u : State) (e : Event) : (s.withEffect u e).inq = u.inq := rfl
@[simp] theorem State.withEffect_log (s u : State) (e : Event) : (s.withEffect u e).log = s.log ++ e.outputs := rfl
@[simp] theorem State.withEffect_suspend (s u : State) (e : Event) : (s.withEffect u e).suspend = s.suspend := rfl
@[simp] theorem State.withEffect_status (s u : State) (e : Event) : (s.withEffect u e).status = s.status := rfl
@[simp] theorem State.withEffect_fcause (s u : State) (e : Event) : (s.withEffect u e).fcause = s.fcause := rfl

/-- `t` holds what `s` holds in every item a program can look at, in at least as many cells. -/
structure SeesAsMuch (s t : State) : Prop where
  mem : t.mem = s.mem
  cap : s.cap ≤ t.cap
  pc : t.pc = s.pc
  rb : t.rb = s.rb
  inq : t.inq = s.inq

theorem SeesAsMuch.refl (s : State) : SeesAsMuch s s := ⟨rfl, Nat.le_refl _, rfl, rfl, rfl⟩

section
variable {s t u : State} {e : Event} (h : SeesAsMuch s t)
include h

theorem SeesAsMuch.hasCell {addr : Int} (hc : s.HasCell addr) : t.HasCell addr :=
  ⟨hc.1, by have := h.cap; have := hc.2; omega⟩

theorem SeesAsMuch.memRead_ok {addr : Int} {v : Word} (hv : memRead addr s = .ok v) : memRead addr t = .ok v := by
  obtain ⟨hc, rfl⟩ := memRead_ok_iff.mp hv
  rw [memRead_of_hasCell (h.hasCell hc), h.mem]

theorem SeesAsMuch.readable {p : Param} (hp : Readable p s) : Readable p t := by
  intro addr haddr
  rw [effectiveAddress_congr h.rb] at haddr
  exact h.hasCell (hp addr haddr)

theorem SeesAsMuch.operandValue_eq (p : Param) : operandValue p t = operandValue p s := by
  simp only [operandValue, effectiveAddress_congr h.rb, h.mem]

/-- A write that succeeds in `s` writes the same cell in `t`. -/
theorem SeesAsMuch.writeParam_ok {p : Param} {d : Int} (hd : effectiveAddress s p = some d) (hc : s.HasCell d)
    (v : Word) : writeParam p v t = .ok (t.setMem (s.mem.write d.toNat v)) := by
  rw [writeParam_of_address ((effectiveAddress_congr h.rb p).trans hd), memWrite_of_hasCell (h.hasCell hc), h.mem]

theorem SeesAsMuch.threeOperand_ok {f : Word → Word → Word} {a b out : Param}
    (hok : threeOperand f a b out s = .ok (u, e)) : threeOperand f a b out t = .ok (t.withEffect u e, e) := by
  rcases threeOperand_cases f a b out s with ⟨d, ha, hb, hd, hc, r⟩ | ⟨_, r⟩ | ⟨_, _, r⟩ | ⟨_, _, _, _, _, r⟩ |
    ⟨_, _, _, r⟩ <;> rw [r] at hok <;> cases hok
  rw [threeOperand_of_readable (h.readable ha) (h.readable hb), h.writeParam_ok hd hc, h.operandValue_eq,
    h.operandValue_eq]
  simp [Except.map, State.withEffect, advance, State.setPc, State.setMem, Event.outputs, h.pc, h.rb, h.inq]

theorem SeesAsMuch.takeInput_ok {out : Param} (hok : takeInput out s = .ok (u, e)) :
    takeInput out t = .ok (t.withEffect u e, e) := by
  rcases takeInput_cases out s with ⟨v, rest, d, hq, hd, hc, r⟩ | ⟨_, r⟩ | ⟨_, _, _, _, r⟩ | ⟨_, _, r⟩ <;>
    rw [r] at hok <;> cases hok
  rw [takeInput_of_cons (h.inq.trans hq), h.writeParam_ok hd hc]
  simp [Except.map, State.withEffect, advance, State.setPc, State.setMem, State.setInq, Event.outputs, h.pc, h.rb]

theorem SeesAsMuch.giveOutput_ok {a : Param} (hok : giveOutput a s = .ok (u, e)) :
    giveOutput a t = .ok (t.withEffect u e, e) := by
  rcases giveOutput_cases a s with ⟨ha, r⟩ | ⟨_, r⟩ <;> rw [r] at hok <;> cases hok
  rw [giveOutput_of_readable (h.readable ha), h.operandValue_eq]
  simp [State.withEffect, advance, State.setPc, State.setLog, Event.outputs, h.mem, h.pc, h.rb, h.inq]

theorem SeesAsMuch.conditionalJump_ok {test : Word → Bool} {a b : Param}
    (hok : conditionalJump test a b s = .ok (u, e)) :
    conditionalJump test a b t = .ok (t.withEffect u e, e) := by
  have hva := h.operandValue_eq a
  rcases conditionalJump_cases test a b s with ⟨ha, ht, r⟩ | ⟨ha, ht, hb, hpos, r⟩ | ⟨_, r⟩ | ⟨_, _, _, r⟩ |
    ⟨_, _, _, _, r⟩ <;> rw [r] at hok <;> cases hok
  · rw [conditionalJump_of_not_taken (h.readable ha) (by simp [hva, ht])]
    simp [State.withEffect, advance, State.setPc, Event.outputs, h.mem, h.pc, h.rb, h.inq]
  · rw [conditionalJump_of_taken (h.readable ha) (hva ▸ ht), readParam_of_readable (h.readable hb),
      h.operandValue_eq, Except.bind, jumpTo_of_nonneg hpos]
    simp [State.withEffect, State.setPc, Event.outputs, h.mem, h.rb, h.inq]

theorem SeesAsMuch.adjustBase_ok {a : Param} (hok : adjustBase a s = .ok (u, e)) :
    adjustBase a t = .ok (t.withEffect u e, e) := by
  rcases adjustBase_cases a s with ⟨ha, r⟩ | ⟨_, r⟩ <;> rw [r] at hok <;> cases hok
  rw [adjustBase_of_readable (h.readable ha), h.operandValue_eq]
  simp [State.withEffect, advance, State.setPc, State.setRb, Event.outputs, h.mem, h.pc, h.rb, h.inq]

/-- An instruction that completes in `s` completes in `t` with the same changes and the same event. -/
theorem SeesAsMuch.action_ok {i : Instr} (hok : action i s = .ok (u, e)) :
    action i t = .ok (t.withEffect u e, e) := by
  cases i with
  | add a b out => exact h.threeOperand_ok hok
  | mul a b out => exact h.threeOperand_ok hok
  | input out => exact h.takeInput_ok hok
  | output a => exact h.giveOutput_ok hok
  | jnz a b => exact h.conditionalJump_ok hok
  | jz a b => exact h.conditionalJump_ok hok
  | lt a b out => exact h.threeOperand_ok hok
  | eq a b out => exact h.threeOperand_ok hok
  | arb a => exact h.adjustBase_ok hok
  | hlt =>
    cases (hok : Except.ok (advance 0 s, Event.halt) = .ok (u, e))
    simp [action, State.withEffect, advance, State.setPc, Event.outputs, h.mem, h.pc, h.rb, h.inq]

theorem SeesAsMuch.fetchOperands_ok {hd : Head} {i : Instr} (hok : fetchOperands hd s = .ok i) :
    fetchOperands hd t = .ok i := by
  cases hd with
  | f0 => exact hok
  | f1 op m1 =>
    obtain ⟨r1, h1, hi⟩ := except_bind_eq_ok_iff.mp hok
    exact except_bind_eq_ok_iff.mpr ⟨r1, h.pc ▸ h.memRead_ok h1, hi⟩
  | f2 op m1 m2 =>
    obtain ⟨r1, h1, hok⟩ := except_bind_eq_ok_iff.mp hok
    obtain ⟨r2, h2, hi⟩ := except_bind_eq_ok_iff.mp hok
    exact except_bind_eq_ok_iff.mpr ⟨r1, h.pc ▸ h.memRead_ok h1,
      except_bind_eq_ok_iff.mpr ⟨r2, h.pc ▸ h.memRead_ok h2, hi⟩⟩
  | f3 op m1 m2 m3 =>
    obtain ⟨r1, h1, hok⟩ := except_bind_eq_ok_iff.mp hok
    obtain ⟨r2, h2, hok⟩ := except_bind_eq_ok_iff.mp hok
    obtain ⟨r3, h3, hi⟩ := except_bind_eq_ok_iff.mp hok
    exact except_bind_eq_ok_iff.mpr ⟨r1, h.pc ▸ h.memRead_ok h1,
      except_bind_eq_ok_iff.mpr ⟨r2, h.pc ▸ h.memRead_ok h2,
        except_bind_eq_ok_iff.mpr ⟨r3, h.pc ▸ h.memRead_ok h3, hi⟩⟩⟩

theorem SeesAsMuch.fetch_ok {i : Instr} (hok : fetch s = .ok i) : fetch t = .ok i := by
  obtain ⟨w, hd, hw, hhead, hops⟩ := Machine.fetch_ok hok
  rw [fetch_of_decodeHead_ok (h.pc ▸ h.memRead_ok hw) hhead, h.fetchOperands_ok hops]

end

/-- What an instruction that completes leaves is the state it began in with its effect: CAP, SUSPEND, STATUS and FCAUSE
are as they were, and LOG has grown by its output. -/
theorem action_ok_eq_withEffect {i : Instr} {s u : State} {e : Event} (h : action i s = .ok (u, e)) :
    u = s.withEffect u e := by
  have hself := (SeesAsMuch.refl s).action_ok h
  rw [h] at hself
  exact congrArg Prod.fst (Except.ok.inj hself)

/-! ### Steps that complete -/

/-- The instruction at pc completes in `s`, leaving `u` with the event `e`. -/
structure Completes (s : State) (i : Instr) (u : State) (e : Event) : Prop where
  fetched : fetch s = .ok i
  acted : action i s = .ok (u, e)

theorem SeesAsMuch.completes {s t u : State} {i : Instr} {e : Event} (h : SeesAsMuch s t) (hc : Completes s i u e) :
    Completes t i (t.withEffect u e) e := ⟨h.fetch_ok hc.fetched, h.action_ok hc.acted⟩

theorem step_of_terminal {s : State} (hs : s.status.terminal = true) : step s = .next s := by
  rcases step_cases s with ⟨_, h⟩ | ⟨ht, _⟩ | ⟨ht, _⟩
  · exact h
  all_goals cases hs.symm.trans ht

/-- What a step of an instance that accepts it does: fault entry, or the instruction at pc. -/
theorem step_of_not_terminal {s : State} (hs : s.status.terminal = false) :
    ((∀ i u e, ¬ Completes s i u e) ∧ ∃ f, step s = .next (takeFault f s)) ∨
      ∃ i u e, Completes s i u e ∧ step s = .next (u.setStatus e.status) := by
  rcases step_cases s with ⟨ht, _⟩ | ⟨_, f, hf, h⟩ | ⟨_, i, hi, h⟩
  · cases hs.symm.trans ht
  · exact .inl ⟨fun i u e hc => (nomatch hf.symm.trans hc.fetched), f, h⟩
  · rw [beginStep, exec_setStatus, exec_eq_settle] at h
    cases ha : action i s with
    | error f =>
      refine .inl ⟨fun j u e ⟨hj, hu⟩ => ?_, f, by rw [h, ha, settle_error]⟩
      cases hi.symm.trans hj
      cases ha.symm.trans hu
    | ok r => exact .inr ⟨i, r.1, r.2, ⟨hi, ha⟩, by rw [h, ha, settle_ok]⟩

/-- Everything a step can do to the state. -/
theorem step_next {s t : State} (h : step s = .next t) :
    (s.status.terminal = true ∧ t = s) ∨
    (s.status.terminal = false ∧ ∃ f, t = takeFault f s) ∨
    (s.status.terminal = false ∧ ∃ i u e, Completes s i u e ∧ t = u.setStatus e.status) := by
  cases hs : s.status.terminal with
  | true =>
    rw [step_of_terminal hs] at h
    cases h
    exact .inl ⟨rfl, rfl⟩
  | false =>
    rcases step_of_not_terminal hs with ⟨-, f, hf⟩ | ⟨i, u, e, hc, hu⟩
    · rw [hf] at h
      cases h
      exact .inr (.inl ⟨rfl, f, rfl⟩)
    · rw [hu] at h
      cases h
      exact .inr (.inr ⟨rfl, i, u, e, hc, rfl⟩)

theorem step_of_completes {s u : State} {i : Instr} {e : Event} (hs : s.status.terminal = false)
    (hc : Completes s i u e) : step s = .next (u.setStatus e.status) := by
  rcases step_of_not_terminal hs with ⟨hno, -⟩ | ⟨j, w, d, ⟨hj, hw⟩, hstep⟩
  · exact absurd hc (hno i u e)
  · cases hc.fetched.symm.trans hj
    cases hc.acted.symm.trans hw
    exact hstep

end Sys2Proof.Machine

/-! SUPPORT and the proofs of O3, O49 and O50 (`10_state.md` sections 2, 3 and 5; `20_memory.md` section 6;
`60_exceptions.md` section 5). -/

namespace Sys2Proof.Machine

/-! ### What every step keeps -/

/-- The relations between STATUS, FCAUSE and LOG (R28, R29), whatever the bound on the capacity. -/
structure StatusLaws (s : State) : Prop where
  notRunning : s.status ≠ .running
  causeWhenFaulted : s.fcause ≠ none ↔ s.status = .faulted
  outputWhenSuspended : s.status = .suspended → s.log ≠ []

theorem Consistent.statusLaws {capMax : Nat} {s : State} (h : Consistent capMax s) : StatusLaws s :=
  ⟨h.notRunning, h.causeWhenFaulted, h.outputWhenSuspended⟩

theorem statusLaws_takeFault (f : Fault) (s : State) : StatusLaws (takeFault f s) :=
  ⟨nofun, by simp, nofun⟩

theorem fcause_of_not_terminal {s : State} (h : StatusLaws s) (hs : s.status.terminal = false) : s.fcause = none := by
  by_contra hf
  rw [h.causeWhenFaulted.mp hf] at hs
  cases hs

/-- The STATUS of an event and the LOG it appended to agree. -/
theorem StatusLaws.completes {s u : State} {i : Instr} {e : Event} (h : StatusLaws s) (hs : s.status.terminal = false)
    (hc : Completes s i u e) : StatusLaws (u.setStatus e.status) := by
  rw [action_ok_eq_withEffect hc.acted]
  refine ⟨event_status_ne_running e, ?_, fun hsus => ?_⟩
  · simp [fcause_of_not_terminal h hs, event_status_ne_faulted e]
  · cases e <;> simp_all [Event.status, Event.outputs]

theorem StatusLaws.step {s t : State} (h : StatusLaws s) (hstep : step s = .next t) : StatusLaws t := by
  rcases step_next hstep with ⟨-, rfl⟩ | ⟨-, f, rfl⟩ | ⟨hs, i, u, e, hc, rfl⟩
  · exact h
  · exact statusLaws_takeFault f s
  · exact h.completes hs hc

theorem cap_of_completes {s u : State} {i : Instr} {e : Event} (hc : Completes s i u e) : u.cap = s.cap := by
  rw [action_ok_eq_withEffect hc.acted, State.withEffect_cap]

/-- R55: an instruction keeps the canonical form of memory. -/
theorem memCanonical_of_completes {s u : State} {i : Instr} {e : Event} (hc : Completes s i u e)
    (hm : s.mem.wf = true) : u.mem.wf = true := by
  rcases action_ok_mem hc.acted with hu | ⟨d, out, v, -, -, -, hu⟩
  · rwa [hu]
  · rw [hu]
    exact Memory.wf_write hm _ v

/-- R53: an instruction writes below CAP only. -/
theorem memBelow_of_completes {s u : State} {i : Instr} {e : Event} (hc : Completes s i u e)
    (hm : s.mem.below s.cap = true) : u.mem.below s.cap = true := by
  rcases action_ok_mem hc.acted with hu | ⟨d, out, v, -, -, ⟨h0, hcap⟩, hu⟩
  · rwa [hu]
  · rw [hu]
    exact Memory.below_write hm (by omega) v

/-- R23: the cells of a fetched instruction lie below CAP, and a jump's target is a value of a cell. -/
theorem pcBound_of_completes {s u : State} {i : Instr} {e : Event} (hc : Completes s i u e)
    (hcap : (s.cap : Int) ≤ intMax) : (u.pc : Int) ≤ intMax := by
  rcases action_ok_pc hc.acted with hpc | ⟨a, b, -, hpc⟩
  · have hbound := fetch_bound hc.fetched
    rw [hpc, Instr.length]
    omega
  · have hlt := BitVec.toInt_lt (x := operandValue b s)
    rw [hpc, intMax]
    omega

/-- Settles O3: a step changes nothing, takes a fault, or completes an instruction, and each keeps every clause. -/
theorem stepKeepsConsistent : Obligations.StepKeepsConsistent := by
  intro capMax s t hmax h hstep
  obtain ⟨hrun, hcause, hlog⟩ := h.statusLaws.step hstep
  rcases step_next hstep with ⟨-, rfl⟩ | ⟨-, f, rfl⟩ | ⟨-, i, u, e, hc, rfl⟩
  · exact h
  · exact ⟨h.memCanonical, h.memBelowCap, h.capBound, h.pcBound, hrun, hcause, hlog⟩
  · have hcap := cap_of_completes hc
    have hbound := h.capBound
    have hwf := memCanonical_of_completes hc h.memCanonical
    have hbelow := memBelow_of_completes hc h.memBelowCap
    have hpc := pcBound_of_completes hc (by omega)
    exact ⟨hwf, hcap ▸ hbelow, hcap ▸ hbound, hpc, hrun, hcause, hlog⟩

/-! ### What a step does not look at -/

/-- Settles O49: each instance sees as much as the other, so both complete the same instruction with the same effect, or
neither completes and both take a fault. -/
theorem programCannotReadHostSide : Obligations.ProgramCannotReadHostSide := by
  intro s u s' u' hs hu hmem hcap hpc hrb hinq hs' hu'
  have hsu : SeesAsMuch s u := ⟨hmem, hcap.ge, hpc, hrb, hinq⟩
  have hus : SeesAsMuch u s := ⟨hmem.symm, hcap.le, hpc.symm, hrb.symm, hinq.symm⟩
  rcases step_of_not_terminal (accepting_not_terminal hs) with ⟨hno, f, hstep⟩ | ⟨i, r, e, hc, hstep⟩
  · rcases step_of_not_terminal (accepting_not_terminal hu) with ⟨-, g, hstep'⟩ | ⟨i, r, e, hc, -⟩
    · cases hs'.symm.trans hstep
      cases hu'.symm.trans hstep'
      exact ⟨hmem, hcap, hpc, hrb, hinq, rfl⟩
    · exact absurd (hus.completes hc) (hno _ _ _)
  · have hstep' := step_of_completes (accepting_not_terminal hu) (hsu.completes hc)
    cases hs'.symm.trans hstep
    cases hu'.symm.trans hstep'
    exact ⟨rfl, hcap.trans (cap_of_completes hc).symm, rfl, rfl, rfl, rfl⟩

/-- Where no cell is listed at or above CAP, growing is a change of CAP alone. -/
theorem growTo_eq_setCap {c : Nat} {s : State} (hm : s.mem.below s.cap = true) :
    growTo c s = s.setCap (max s.cap c) := by
  unfold growTo
  split
  · next hlt => rw [Memory.keepBelow_of_below hm, Nat.max_eq_right hlt.le]; rfl
  · next hge => rw [Nat.max_eq_left (Nat.le_of_not_lt hge)]; rfl

/-- Settles O50: the grown instance sees as much, so what completes there completes with the same effect. -/
theorem growthIsInvisibleWithoutFault : Obligations.GrowthIsInvisibleWithoutFault := by
  intro capMax c s t h hstep hnofault
  have hgrow := growTo_eq_setCap (c := c) h.memBelowCap
  rcases step_next hstep with ⟨ht, rfl⟩ | ⟨-, f, rfl⟩ | ⟨ht, i, u, e, hc, rfl⟩
  · exact step_of_terminal (by rwa [hgrow])
  · exact absurd rfl hnofault
  · have hcap := cap_of_completes hc
    have hsees : SeesAsMuch s (s.setCap (max s.cap c)) := ⟨rfl, Nat.le_max_left _ _, rfl, rfl, rfl⟩
    have hgrow' : growTo c (u.setStatus e.status) = (u.setStatus e.status).setCap (max s.cap c) := by
      rw [growTo_eq_setCap (by simpa [hcap] using memBelow_of_completes hc h.memBelowCap)]
      simp [hcap]
    rw [hgrow, hgrow', step_of_completes (by exact ht) (hsees.completes hc)]
    conv_rhs => rw [action_ok_eq_withEffect hc.acted]
    rfl

end Sys2Proof.Machine

/-! SUPPORT and the proofs of O21, O33 to O43 and O46 to O48 (`40_fetch_decode_resolve.md`, `41_arithmetic.md` to
`45_base_halt.md`, `60_exceptions.md` sections 1 and 3). What an instruction leaves, item by item, whether it completed
or took a fault; the frames read off that. -/

namespace Sys2Proof.Machine

theorem exec_of_action_ok {i : Instr} {s u : State} {e : Event} (h : action i s = .ok (u, e)) :
    exec i s = .next (u.setStatus e.status) := by rw [exec_eq_settle, h, settle_ok]

theorem exec_of_action_error {i : Instr} {s : State} {f : Fault} (h : action i s = .error f) :
    exec i s = .next (takeFault f s) := by rw [exec_eq_settle, h, settle_error]

/-- Settles O21: a fault is taken and a completed instruction settled, and a step in HALTED or FAULTED stays. -/
theorem everyStepHasNextState : Obligations.EveryStepHasNextState := by
  constructor
  · intro s
    cases hs : s.status.terminal with
    | true => exact ⟨s, step_of_terminal hs⟩
    | false =>
      rcases step_of_not_terminal hs with ⟨-, f, hf⟩ | ⟨i, u, e, -, hu⟩
      · exact ⟨_, hf⟩
      · exact ⟨_, hu⟩
  · intro i s
    cases ha : action i s with
    | error f => exact ⟨_, exec_of_action_error ha⟩
    | ok r => exact ⟨_, exec_of_action_ok ha⟩

/-! ### ARB and HLT -/

theorem adjustBase_of_not_readable {a : Param} {s : State} (ha : ¬ Readable a s) :
    adjustBase a s = .error .addressOutOfBounds := by
  simp only [adjustBase, readParam_of_not_readable ha]
  rfl

/-- Settles O33: the operand is readable, with the old rb in its address and in the sum, or not. -/
theorem adjustBaseRule : Obligations.AdjustBaseRule := fun a _ =>
  ⟨encode_of_one_param rfl, fun ha => exec_of_action_ok (i := .arb a) (adjustBase_of_readable ha),
    fun ha => exec_of_action_error (i := .arb a) (adjustBase_of_not_readable ha)⟩

/-- Settles O34: Halt has no operand to fault on, and its event is Halt. -/
theorem haltRule : Obligations.HaltRule :=
  ⟨rfl, fun _ => ⟨_, exec_of_action_ok (i := .hlt) rfl, rfl, rfl⟩⟩

/-! ### What an instruction leaves of each item -/

/-- R22, R27, R236: CAP and SUSPEND are written by no instruction, and FCAUSE by fault entry alone. -/
theorem exec_keepsControl {i : Instr} {s t : State} (h : exec i s = .next t) : KeepsControl s t := by
  rcases exec_next h with ⟨f, -, rfl⟩ | ⟨u, e, hu, rfl⟩
  · exact ⟨rfl, rfl, fun hne => absurd rfl hne⟩
  · rw [action_ok_eq_withEffect hu]
    exact ⟨rfl, rfl, fun _ => rfl⟩

/-- R26: LOG is written by OUT alone, which appends its value. -/
theorem exec_log {i : Instr} {s t : State} (h : exec i s = .next t) :
    t.log = s.log ∨ ∃ a, i = .output a ∧ t.log = s.log ++ [operandValue a s] := by
  rcases exec_next h with ⟨f, -, rfl⟩ | ⟨u, e, hu, rfl⟩
  · exact .inl rfl
  · rw [action_ok_eq_withEffect hu]
    rcases action_ok_event hu with rfl | ⟨a, hi, rfl⟩ | ⟨-, rfl⟩
    · exact .inl (List.append_nil s.log)
    · exact .inr ⟨a, hi, rfl⟩
    · exact .inl (List.append_nil s.log)

/-- Settles O47: fault entry writes neither rb nor INQ, and what completes is as `action_ok_rb`, `action_ok_inq` say. -/
theorem onlyArbWritesBaseOnlyInTakesInput : Obligations.OnlyArbWritesBaseOnlyInTakesInput := by
  intro i s t h
  rcases exec_next h with ⟨f, -, rfl⟩ | ⟨u, e, hu, rfl⟩
  · exact ⟨fun hne => absurd rfl hne, fun hne => absurd rfl hne⟩
  · exact ⟨(action_ok_rb hu).resolve_left, (action_ok_inq hu).resolve_left⟩

/-- Settles O48: fault entry writes no cell, and an instruction that completes at most the one it names. -/
theorem onlyWriteParameterChangesMemory : Obligations.OnlyWriteParameterChangesMemory := by
  intro i s t addr h hne
  rcases exec_next h with ⟨f, -, rfl⟩ | ⟨u, e, hu, rfl⟩
  · exact absurd rfl hne
  · have hcap : u.cap = s.cap := by rw [action_ok_eq_withEffect hu, State.withEffect_cap]
    rcases action_ok_mem hu with hm | ⟨d, out, v, hout, hd, hc, hm⟩
    · exact absurd (memRead_congr hm hcap addr) hne
    · by_cases haddr : addr = d
      · exact ⟨out, hout, haddr ▸ hd⟩
      · exact absurd ((memRead_congr (s := s.setMem (s.mem.write d.toNat v)) hm hcap addr).trans
          (memRead_after_write_other hc haddr v)) hne

/-- Settles O35: an instruction that does not fault has completed, and moves pc as `action_ok_pc` says. -/
theorem pcAdvancesByLength : Obligations.PcAdvancesByLength := by
  intro i s t _ hjump h hok
  rcases exec_next h with ⟨f, -, rfl⟩ | ⟨u, e, hu, rfl⟩
  · exact absurd rfl hok
  · rcases action_ok_pc hu with hpc | ⟨a, b, hi, -⟩
    · exact hpc
    · exact absurd hi (by simp [hjump a b])

/-! ### Frames -/

/-- An instruction keeps every cell but the one its write parameter names. -/
theorem exec_memoryKeptOutside {i : Instr} {s t : State} {stored : Option Int} (h : exec i s = .next t)
    (hstored : ∀ out, i.writeParam? = some out → effectiveAddress s out = stored) :
    MemoryKeptOutside stored s t := by
  intro addr hne
  by_contra hchanged
  obtain ⟨out, hout, hd⟩ := onlyWriteParameterChangesMemory i s t addr h hchanged
  exact hne ((hstored out hout).symm.trans hd)

theorem exec_rb {i : Instr} {s t : State} (h : exec i s = .next t) (hi : ∀ a, i ≠ .arb a) : t.rb = s.rb := by
  by_contra hne
  obtain ⟨a, ha⟩ := (onlyArbWritesBaseOnlyInTakesInput i s t h).1 hne
  exact hi a ha

theorem exec_inq {i : Instr} {s t : State} (h : exec i s = .next t) (hi : ∀ out, i ≠ .input out) : t.inq = s.inq := by
  by_contra hne
  obtain ⟨out, v, ho, -⟩ := (onlyArbWritesBaseOnlyInTakesInput i s t h).2 hne
  exact hi out ho

theorem exec_log_of_not_output {i : Instr} {s t : State} (h : exec i s = .next t) (hi : ∀ a, i ≠ .output a) :
    t.log = s.log := by
  rcases exec_log h with hlog | ⟨a, ha, -⟩
  · exact hlog
  · exact absurd ha (hi a)

/-- Settles O36: out is the write parameter, and none of the four is ARB, IN or OUT. -/
theorem threeOperandFrame : Obligations.ThreeOperandFrame := by
  intro a b out i s t hi h
  have hwrite : i.writeParam? = some out := by rcases hi with rfl | rfl | rfl | rfl <;> rfl
  have hother : (∀ a, i ≠ .arb a) ∧ (∀ out, i ≠ .input out) ∧ ∀ a, i ≠ .output a := by
    rcases hi with rfl | rfl | rfl | rfl <;> exact ⟨nofun, nofun, nofun⟩
  obtain ⟨harb, hin, hout⟩ := hother
  refine ⟨exec_memoryKeptOutside h fun o ho => ?_, exec_keepsControl h, exec_rb h harb, exec_inq h hin,
    exec_log_of_not_output h hout⟩
  rw [Option.some.inj (hwrite.symm.trans ho)]

/-- Settles O37: out is the write parameter, and INQ, where it changes, loses its front. -/
theorem inputFrame : Obligations.InputFrame := by
  intro out s t h
  refine ⟨exec_memoryKeptOutside h fun o ho => ?_, exec_keepsControl h, exec_rb h nofun,
    exec_log_of_not_output h nofun, ?_⟩
  · cases ho
    rfl
  · by_cases hinq : t.inq = s.inq
    · exact .inr hinq
    · obtain ⟨_, v, -, hq⟩ := (onlyArbWritesBaseOnlyInTakesInput _ s t h).2 hinq
      exact .inl (by rw [hq, List.tail_cons])

/-- Settles O38: OUT has no write parameter, and its value is the one appended. -/
theorem outputFrame : Obligations.OutputFrame := by
  intro a s t h
  refine ⟨exec_memoryKeptOutside h nofun, exec_keepsControl h, exec_rb h nofun, exec_inq h nofun, ?_⟩
  rcases exec_log h with hlog | ⟨b, hb, hlog⟩
  · exact .inl hlog
  · cases hb
    exact .inr hlog

/-- Settles O39: none of the three has a write parameter, and none is ARB, IN or OUT. -/
theorem jumpAndHaltFrame : Obligations.JumpAndHaltFrame := by
  intro a b i s t hi h
  rcases hi with rfl | rfl | rfl <;>
    exact ⟨exec_memoryKeptOutside h nofun, exec_keepsControl h, exec_rb h nofun, exec_inq h nofun,
      exec_log_of_not_output h nofun⟩

/-- Settles O40: ARB has no write parameter, and is neither IN nor OUT. -/
theorem adjustBaseFrame : Obligations.AdjustBaseFrame := fun _ _ _ h =>
  ⟨exec_memoryKeptOutside h nofun, exec_keepsControl h, exec_inq h nofun, exec_log_of_not_output h nofun⟩

/-! ### Faults -/

/-- Settles O41: FAULTED is left by fault entry alone, since no event has that STATUS. -/
theorem faultsArePrecise : Obligations.FaultsArePrecise := by
  constructor
  · intro i s t h hf
    rcases exec_next h with ⟨f, -, rfl⟩ | ⟨u, e, -, rfl⟩
    · exact ⟨f, rfl⟩
    · exact absurd hf (event_status_ne_faulted e)
  · intro s t hs h hf
    rcases step_next h with ⟨ht, -⟩ | ⟨-, f, rfl⟩ | ⟨-, i, u, e, -, rfl⟩
    · cases (accepting_not_terminal hs).symm.trans ht
    · exact ⟨f, rfl⟩
    · exact absurd hf (event_status_ne_faulted e)

theorem threeOperand_error {f : Word → Word → Word} {a b out : Param} {s : State} {g : Fault}
    (h : threeOperand f a b out s = .error g) : g = .writeToImmediate ∨ g = .addressOutOfBounds := by
  rcases threeOperand_cases f a b out s with ⟨_, _, _, _, _, r⟩ | ⟨_, r⟩ | ⟨_, _, r⟩ | ⟨_, _, _, _, _, r⟩ |
    ⟨_, _, _, r⟩ <;> cases h.symm.trans r <;> simp

theorem conditionalJump_error {test : Word → Bool} {a b : Param} {s : State} {g : Fault}
    (h : conditionalJump test a b s = .error g) : g = .addressOutOfBounds := by
  rcases conditionalJump_cases test a b s with ⟨_, _, r⟩ | ⟨_, _, _, _, r⟩ | ⟨_, r⟩ | ⟨_, _, _, r⟩ |
    ⟨_, _, _, _, r⟩ <;> cases h.symm.trans r <;> rfl

/-- Settles O42: the cause is the fault of the action, and each shape of action raises what R231's table says. -/
theorem faultsEachInstructionCanRaise : Obligations.FaultsEachInstructionCanRaise := by
  intro i s t f h hfaulted hcause
  have hact : action i s = .error f := by
    rcases exec_next h with ⟨g, hg, rfl⟩ | ⟨u, e, -, rfl⟩
    · cases hcause
      exact hg
    · exact absurd hfaulted (event_status_ne_faulted e)
  cases i with
  | add a b out => exact threeOperand_error hact
  | mul a b out => exact threeOperand_error hact
  | input out =>
    rcases takeInput_cases out s with ⟨_, _, _, _, _, _, r⟩ | ⟨_, r⟩ | ⟨_, _, _, _, r⟩ | ⟨_, _, r⟩ <;>
      cases hact.symm.trans r <;> simp
  | output a => rcases giveOutput_cases a s with ⟨_, r⟩ | ⟨_, r⟩ <;> cases hact.symm.trans r; rfl
  | jnz a b => exact conditionalJump_error hact
  | jz a b => exact conditionalJump_error hact
  | lt a b out => exact threeOperand_error hact
  | eq a b out => exact threeOperand_error hact
  | arb a => rcases adjustBase_cases a s with ⟨_, r⟩ | ⟨_, r⟩ <;> cases hact.symm.trans r; rfl
  | hlt => cases hact

/-- An Immediate write parameter names no address. -/
theorem effectiveAddress_of_not_legalTarget {p : Param} (hp : p.legalTarget = false) (s : State) :
    effectiveAddress s p = none := by
  cases p with
  | immediate x => rfl
  | position x => cases hp
  | relative x => cases hp

/-- Settles O43: an instruction with a write parameter completes only by storing at its address, and Immediate has
none. -/
theorem illFormedNeverCompletes : Obligations.IllFormedNeverCompletes := by
  intro i s t hill h
  rcases exec_next h with ⟨f, -, rfl⟩ | ⟨u, e, hu, -⟩
  · rfl
  · exfalso
    rcases action_ok hu with ⟨d, out, v, hout, hd, -⟩ | ⟨a, rfl, -⟩ | ⟨a, b, rfl | rfl, -⟩ | ⟨a, rfl, -⟩ | ⟨rfl, -⟩
    · rw [Instr.wellFormed, hout] at hill
      cases (effectiveAddress_of_not_legalTarget hill s).symm.trans hd
    all_goals cases hill

/-- Settles O46: the two kinds of step that change anything write neither CAP nor SUSPEND, and LOG grows by the output
of the event, whose STATUS is SUSPENDED. -/
theorem stepKeepsCapacityAndPolicy : Obligations.StepKeepsCapacityAndPolicy := by
  intro s t h
  rcases step_next h with ⟨-, rfl⟩ | ⟨-, f, rfl⟩ | ⟨-, i, u, e, hc, rfl⟩
  · exact ⟨rfl, rfl, .inl rfl⟩
  · exact ⟨rfl, rfl, .inl rfl⟩
  · rw [action_ok_eq_withEffect hc.acted]
    refine ⟨rfl, rfl, ?_⟩
    cases e with
    | noEvent => exact .inl (List.append_nil s.log)
    | output v => exact .inr ⟨v, rfl, rfl⟩
    | halt => exact .inl (List.append_nil s.log)

end Sys2Proof.Machine

/-! SUPPORT and the proofs of O2, O4, O5, O44, O45 and O51 to O60 (`46_host_commands_run_control.md`). The host commands
one by one, RUN as the iteration of STEP, and sessions. -/

namespace Sys2Proof.Machine

/-! ### LOAD, RESERVE, and the commands that feed and inspect -/

theorem load_of_le {capMax : Nat} {image : List Word} (h : image.length ≤ capMax) (input : List Word) (s : State) :
    load capMax image input s = (loadedState image input, .ok) := if_pos h

theorem load_of_lt {capMax : Nat} {image : List Word} (h : capMax < image.length) (input : List Word) (s : State) :
    load capMax image input s = (s, .refused .capacityExceeded) := if_neg (Nat.not_le.mpr h)

theorem reserve_of_le {capMax c : Nat} (h : c ≤ capMax) (s : State) : reserve capMax c s = (growTo c s, .ok) :=
  if_neg (Nat.not_lt.mpr h)

theorem reserve_of_lt {capMax c : Nat} (h : capMax < c) (s : State) :
    reserve capMax c s = (s, .refused .capacityExceeded) := if_pos h

/-- Settles O51: the loaded state holds the image from address 0, and every other item is written out. -/
theorem loadRule : Obligations.LoadRule := by
  intro capMax image input s
  refine ⟨fun h => ⟨_, load_of_le h input s, rfl, fun a ha => ?_, rfl, rfl, rfl, rfl, rfl, rfl, rfl,
    Memory.wf_image image 0⟩, fun h => load_of_lt h input s⟩
  refine memRead_ok_iff.mpr ⟨⟨by omega, Int.ofNat_lt.mpr ha⟩, ?_⟩
  simpa [loadedState] using (Memory.read_image image 0 a ha).symm

theorem growTo_of_lt {c : Nat} {s : State} (h : s.cap < c) :
    growTo c s = (s.setMem (s.mem.keepBelow s.cap)).setCap c := if_pos h

theorem growTo_of_le {c : Nat} {s : State} (h : c ≤ s.cap) : growTo c s = s := if_neg (Nat.not_lt.mpr h)

/-- R57: growing writes memory and CAP alone. -/
theorem growTo_eq (c : Nat) (s : State) : growTo c s = { s with mem := (growTo c s).mem, cap := max s.cap c } := by
  rcases Nat.lt_or_ge s.cap c with h | h
  · rw [growTo_of_lt h, Nat.max_eq_right h.le]
    rfl
  · rw [growTo_of_le h, Nat.max_eq_left h]

/-- R57: growing keeps the cells there are. -/
theorem memRead_growTo_of_lt {c : Nat} {s : State} {a : Int} (ha : a < s.cap) :
    memRead a (growTo c s) = memRead a s := by
  rcases Nat.lt_or_ge s.cap c with h | h
  · rw [growTo_of_lt h]
    by_cases h0 : 0 ≤ a
    · rw [memRead_of_hasCell (s := s) ⟨h0, ha⟩]
      refine memRead_ok_iff.mpr ⟨⟨h0, ?_⟩, (Memory.read_keepBelow_lt s.mem (by omega)).symm⟩
      simp only [State.setCap_cap]
      omega
    · rw [memRead_of_not_hasCell fun hc => h0 hc.1, memRead_of_not_hasCell fun hc => h0 hc.1]
  · rw [growTo_of_le h]

/-- R57: the new cells hold 0. -/
theorem memRead_growTo_of_ge {c : Nat} {s : State} {a : Int} (ha : s.cap ≤ a) (hc : a < c) :
    memRead a (growTo c s) = .ok 0 := by
  rw [growTo_of_lt (by omega)]
  exact memRead_ok_iff.mpr ⟨⟨by omega, hc⟩, (Memory.read_keepBelow_ge s.mem (by omega)).symm⟩

theorem memCanonical_growTo {s : State} (h : s.mem.wf = true) (c : Nat) : (growTo c s).mem.wf = true := by
  rcases Nat.lt_or_ge s.cap c with hlt | hge
  · rw [growTo_of_lt hlt]
    exact Memory.wf_keepBelow h s.cap
  · rwa [growTo_of_le hge]

/-- Settles O52: growing is `growTo`, whose memory reads as `memRead_growTo_of_lt` and `memRead_growTo_of_ge` say. -/
theorem reserveRule : Obligations.ReserveRule := fun _ c s =>
  ⟨fun h => reserve_of_lt h s, fun h => ⟨_, reserve_of_le h s, growTo_eq c s, fun _ ha => memRead_growTo_of_lt ha,
    fun _ ha hc => memRead_growTo_of_ge ha hc, fun hm => memCanonical_growTo hm c⟩⟩

/-- Settles O53: each command is its own equation, READ_MEM by the two sides of its bound check. -/
theorem feedAndInspectRules : Obligations.FeedAndInspectRules := fun _ _ _ _ _ =>
  ⟨rfl, rfl, rfl, fun h0 hcap => congrArg some (if_pos ⟨h0, hcap⟩),
    fun h => congrArg some (if_neg (not_hasCell_iff.mpr h))⟩

/-! ### STEP and RUN -/

theorem step_eq_afterStep (s : State) : step s = .next (afterStep s) := by
  obtain ⟨t, ht⟩ := everyStepHasNextState.1 s
  rw [afterStep, ht]

theorem signalOf_of_ready {s : State} (hs : s.status = .ready) : signalOf s = .stepped := by
  simp only [signalOf, hs]

theorem signalOf_of_halted {s : State} (hs : s.status = .halted) : signalOf s = .halted := by
  simp only [signalOf, hs]

theorem signalOf_of_faulted {s : State} (hs : s.status = .faulted) : signalOf s = .fault (fcauseCode s.fcause) := by
  simp only [signalOf, hs]

/-- R230: the codes of the faults. -/
theorem Fault.code_mem (f : Fault) : f.code ∈ [1, 2, 3, 4] := by cases f <;> decide

/-- Settles O54: the Signal is read off the STATUS of the state left, whose FCAUSE and LOG agree with it. -/
theorem stepSignals : Obligations.StepSignals := by
  intro capMax s t sig hs hcommand
  cases hcommand
  have hstep := step_eq_afterStep s
  obtain ⟨hrun, hcause, hlog⟩ := hs.statusLaws.step hstep
  refine ⟨hstep, ?_⟩
  cases hst : (afterStep s).status with
  | ready => simp [signalOf_of_ready hst]
  | running => exact absurd hst hrun
  | suspended =>
    have hlast := List.dropLast_append_getLast (hlog hst)
    rw [signalOf_of_suspended hst hlast.symm]
    refine ⟨by simp, by simp, fun v hv => ?_, nofun, nofun⟩
    cases hv
    exact ⟨rfl, _, hlast.symm⟩
  | halted => simp [signalOf_of_halted hst]
  | faulted =>
    obtain ⟨f, hf⟩ := Option.ne_none_iff_exists'.mp (hcause.mpr hst)
    rw [signalOf_of_faulted hst]
    refine ⟨by simp, by simp, nofun, fun c hc => ?_, nofun⟩
    cases hc
    exact ⟨rfl, hf ▸ Fault.code_mem f, rfl⟩

/-- R197: what ends a RUN, as the Signal of the STEP tells it. -/
theorem runReturns_iff (s : State) : runReturns s = true ↔
    signalOf s = .halted ∨ (∃ c, signalOf s = .fault c) ∨ (∃ v, signalOf s = .output v) ∧ s.suspend = true := by
  cases hs : s.status <;> simp [runReturns, signalOf, hs]

/-- R197: a RUN whose first STEP ends it has the result of that STEP. -/
theorem runReturns_iff_of_ended {s t : State} {sig : Signal} (h : runReturns (afterStep s) = true) :
    RunReturns s t sig ↔ t = afterStep s ∧ sig = signalOf (afterStep s) := by
  have hrun (n : Nat) : runFor (n + 1) s = some (afterStep s, signalOf (afterStep s)) := if_pos h
  refine ⟨fun ⟨n, hn⟩ => ?_, fun ⟨ht, hsig⟩ => ⟨1, by rw [hrun, ht, hsig]⟩⟩
  cases n with
  | zero => cases hn
  | succ n =>
    cases (hrun n).symm.trans hn
    exact ⟨rfl, rfl⟩

/-- R197: any other RUN has the results of RUN from the state after its first STEP. -/
theorem runReturns_iff_of_not_ended {s t : State} {sig : Signal} (h : ¬ runReturns (afterStep s) = true) :
    RunReturns s t sig ↔ RunReturns (afterStep s) t sig := by
  have hrun (n : Nat) : runFor (n + 1) s = runFor n (afterStep s) := if_neg h
  refine ⟨fun ⟨n, hn⟩ => ?_, fun ⟨n, hn⟩ => ⟨n + 1, (hrun n).trans hn⟩⟩
  cases n with
  | zero => cases hn
  | succ n => exact ⟨n, (hrun n).symm.trans hn⟩

/-- Settles O55: the condition on the Signal is the one that ends a RUN. -/
theorem runIteratesStep : Obligations.RunIteratesStep := by
  intro s t sig
  simp only [stepCommand, ← runReturns_iff]
  by_cases h : runReturns (afterStep s) = true
  · simp [runReturns_iff_of_ended h, h]
  · simp [runReturns_iff_of_not_ended h, h]

/-- Induction over the STEPs of a RUN that returns, from its last STEP back. -/
theorem runReturns_induction {motive : State → Prop} {s t : State} {sig : Signal} (h : RunReturns s t sig)
    (stop : ∀ s, runReturns (afterStep s) = true → t = afterStep s → sig = signalOf (afterStep s) → motive s)
    (more : ∀ s, ¬ runReturns (afterStep s) = true → motive (afterStep s) → motive s) : motive s := by
  obtain ⟨n, hn⟩ := h
  induction n generalizing s with
  | zero => cases hn
  | succ n ih =>
    simp only [runFor] at hn
    split at hn
    · next hret =>
      cases hn
      exact stop s hret rfl rfl
    · next hret => exact more s hret (ih hn)

/-- R197: a RUN ends in a state that ends it, with the Signal of that state. -/
theorem runReturns_result {s t : State} {sig : Signal} (h : RunReturns s t sig) :
    runReturns t = true ∧ sig = signalOf t := by
  refine runReturns_induction (motive := fun _ => runReturns t = true ∧ sig = signalOf t) h ?_ fun _ _ ih => ih
  rintro s hret rfl hsig
  exact ⟨hret, hsig⟩

theorem runReturns_unique {s t : State} {sig : Signal} (h : RunReturns s t sig) :
    ∀ t' sig', RunReturns s t' sig' → t' = t ∧ sig' = sig := by
  refine runReturns_induction (motive := fun s => ∀ t' sig', RunReturns s t' sig' → t' = t ∧ sig' = sig) h
    (fun s hret ht hsig t' sig' h' => ?_) (fun s hret ih t' sig' h' => ?_)
  · obtain ⟨ht', hsig'⟩ := (runReturns_iff_of_ended hret).mp h'
    exact ⟨ht'.trans ht.symm, hsig'.trans hsig.symm⟩
  · exact ih t' sig' ((runReturns_iff_of_not_ended hret).mp h')

/-- R27: no STEP writes SUSPEND. -/
theorem suspend_afterStep (s : State) : (afterStep s).suspend = s.suspend :=
  (stepKeepsCapacityAndPolicy s (afterStep s) (step_eq_afterStep s)).2.1

theorem suspend_of_runReturns {s t : State} {sig : Signal} (h : RunReturns s t sig) : t.suspend = s.suspend :=
  runReturns_induction (motive := fun s => t.suspend = s.suspend) h
    (fun s _ ht _ => by rw [ht, suspend_afterStep]) (fun s _ ih => ih.trans (suspend_afterStep s))

theorem coreRun_succ (n : Nat) (s : State) : Host.Core.run core (n + 1) s = Host.Core.run core n (afterStep s) := by
  have hstep : core.step s = .next (afterStep s) := step_eq_afterStep s
  simp only [Host.Core.run, hstep]

theorem coreRun_of_runReturns {s t : State} {sig : Signal} (h : RunReturns s t sig) :
    ∃ n, Host.Core.run core n s = .next t := by
  refine runReturns_induction (motive := fun s => ∃ n, Host.Core.run core n s = .next t) h
    (fun s _ ht _ => ⟨1, ?_⟩) (fun s _ ⟨n, hn⟩ => ⟨n + 1, (coreRun_succ n s).trans hn⟩)
  rw [ht]
  exact coreRun_succ 0 s

/-- Settles O56: the state left ends a RUN, so its Signal is not Stepped, and Output only under SUSPEND. -/
theorem runResultsUniqueAndReached : Obligations.RunResultsUniqueAndReached := by
  intro s t sig h
  obtain ⟨hret, hsig⟩ := runReturns_result h
  have hret := (runReturns_iff t).mp hret
  rw [← hsig] at hret
  refine ⟨runReturns_unique h, ?_, fun v hv => ?_, coreRun_of_runReturns h⟩
  · rintro rfl
    simp at hret
  · rw [hv] at hret
    rw [← suspend_of_runReturns h]
    simpa using hret

/-! ### RUN where it returns at once, and where it never returns -/

theorem afterStep_of_step {s t : State} (h : step s = .next t) : afterStep s = t := by rw [afterStep, h]

theorem afterStep_of_terminal {s : State} (hs : s.status.terminal = true) : afterStep s = s :=
  afterStep_of_step (step_of_terminal hs)

/-- Settles O44: the STEP of a stopped instance changes nothing, and its Signal ends the RUN. -/
theorem stoppedStaysStopped : Obligations.StoppedStaysStopped := by
  intro s hs
  have hterm : s.status.terminal = true := (terminal_iff s.status).mpr hs
  have hret : runReturns s = true := by rcases hs with h | h <;> simp only [runReturns, h]
  have hsig : signalOf s = if s.status = .halted then .halted else .fault (fcauseCode s.fcause) := by
    rcases hs with h | h <;> simp [signalOf, h]
  refine ⟨step_of_terminal hterm, fun t sig => ?_⟩
  have hafter := afterStep_of_terminal hterm
  rw [runReturns_iff_of_ended (by rw [hafter, hret]), hafter, hsig]

/-- The instance will execute a jump to its own address that is taken (R202). -/
structure AtSelfJump (v : Word) (s : State) : Prop where
  accepting : s.Accepting
  target : v.toInt = s.pc
  fetched : fetch s = .ok (.jz (.immediate 0) (.immediate v)) ∨ fetch s = .ok (.jnz (.immediate 1) (.immediate v))

/-- A jump to itself leaves everything but STATUS. -/
theorem AtSelfJump.afterStep_eq {v : Word} {s : State} (h : AtSelfJump v s) : afterStep s = s.setStatus .ready := by
  have one_ne : (1 : Word).toInt ≠ 0 := by decide
  have readable (x : Word) : Readable (.immediate x) s := nofun
  have hpos : 0 ≤ v.toInt := by rw [h.target]; omega
  have hself : ({ s with pc := v.toInt.toNat, status := .ready } : State) = s.setStatus .ready := by
    rw [h.target]
    rfl
  rcases h.fetched with hf | hf
  · have htaken := (jumpIfFalseRule.2 (.immediate 0) (.immediate v) s).2.1 (readable 0) rfl (readable v) hpos
    exact afterStep_of_step ((step_of_fetch_ok h.accepting hf).trans (htaken.trans (congrArg _ hself)))
  · have htaken := (jumpIfTrueRule.2 (.immediate 1) (.immediate v) s).2.1 (readable 1) one_ne (readable v) hpos
    exact afterStep_of_step ((step_of_fetch_ok h.accepting hf).trans (htaken.trans (congrArg _ hself)))

theorem AtSelfJump.setStatus_ready {v : Word} {s : State} (h : AtSelfJump v s) : AtSelfJump v (s.setStatus .ready) :=
  ⟨.inl rfl, h.target, h.fetched⟩

/-- Settles O57: every STEP ends READY at the same jump, and so none ends the RUN. -/
theorem selfJumpNeverReturns : Obligations.SelfJumpNeverReturns := by
  intro s v hs hpc hfetch t sig hrun
  refine runReturns_induction (motive := fun s => ¬ AtSelfJump v s) hrun ?_ ?_ ⟨hs, hpc, hfetch⟩
  · intro s hret _ _ hat
    rw [hat.afterStep_eq] at hret
    cases hret
  · intro s _ ih hat
    rw [hat.afterStep_eq] at ih
    exact ih hat.setStatus_ready

end Sys2Proof.Machine

/-! SUPPORT and the proofs of O2, O4, O5, O45 and O58 to O60 (`10_state.md` section 8; `46_host_commands_run_control.md`
sections 1 and 5). What every command answers, and what every session keeps. -/

namespace Sys2Proof.Machine

/-! ### What a command answers -/

/-- A command other than RUN answers the same under every fuel. -/
theorem answers_iff_of_command {capMax : Nat} {c : Command} {s t : State} {r : Response} {x : State × Response}
    (h : ∀ fuel, command capMax fuel c s = some x) : Answers capMax c s t r ↔ x = (t, r) :=
  ⟨fun ⟨fuel, ha⟩ => Option.some.inj ((h fuel).symm.trans ha), fun hx => ⟨0, (h 0).trans (congrArg some hx)⟩⟩

/-- R197, R205: RUN answers the Signal it returns. -/
theorem answers_run_iff {capMax : Nat} {s t : State} {r : Response} :
    Answers capMax .run s t r ↔ ∃ sig, RunReturns s t sig ∧ r = .signal sig := by
  simp only [Answers, command, Option.map_eq_some_iff, RunReturns, Prod.exists, Prod.mk.injEq]
  constructor
  · rintro ⟨fuel, t', sig, hrun, rfl, rfl⟩
    exact ⟨sig, ⟨fuel, hrun⟩, rfl⟩
  · rintro ⟨sig, ⟨fuel, hrun⟩, rfl⟩
    exact ⟨fuel, t, sig, hrun, rfl, rfl⟩

theorem readMem_state (a : Int) (s : State) : (readMem a s).1 = s := by
  unfold readMem
  split <;> rfl

/-- Everything a command that answers can do to the state: nothing (a read, or a refusal), or what its rule says. -/
theorem answers_cases {capMax : Nat} {c : Command} {s t : State} {r : Response} (h : Answers capMax c s t r) :
    t = s ∨
    (∃ image input, c = .load image input ∧ image.length ≤ capMax ∧ t = loadedState image input) ∨
    (∃ n, c = .reserve n ∧ n ≤ capMax ∧ t = growTo n s) ∨
    (c = .enableSuspend ∧ t = s.setSuspend true) ∨
    (∃ v, c = .pushInput v ∧ t = s.setInq (s.inq ++ [v])) ∨
    (c = .step ∧ t = afterStep s) ∨
    (c = .run ∧ ∃ sig, RunReturns s t sig) := by
  cases c with
  | load image input =>
    have h := (answers_iff_of_command fun _ => rfl).mp h
    by_cases hle : image.length ≤ capMax
    · cases (load_of_le hle input s).symm.trans h
      exact .inr (.inl ⟨image, input, rfl, hle, rfl⟩)
    · cases (load_of_lt (Nat.lt_of_not_le hle) input s).symm.trans h
      exact .inl rfl
  | reserve n =>
    have h := (answers_iff_of_command fun _ => rfl).mp h
    by_cases hle : n ≤ capMax
    · cases (reserve_of_le hle s).symm.trans h
      exact .inr (.inr (.inl ⟨n, rfl, hle, rfl⟩))
    · cases (reserve_of_lt (Nat.lt_of_not_le hle) s).symm.trans h
      exact .inl rfl
  | enableSuspend =>
    cases (answers_iff_of_command fun _ => rfl).mp h
    exact .inr (.inr (.inr (.inl ⟨rfl, rfl⟩)))
  | pushInput v =>
    cases (answers_iff_of_command fun _ => rfl).mp h
    exact .inr (.inr (.inr (.inr (.inl ⟨v, rfl, rfl⟩))))
  | step =>
    cases (answers_iff_of_command fun _ => rfl).mp h
    exact .inr (.inr (.inr (.inr (.inr (.inl ⟨rfl, rfl⟩)))))
  | run =>
    obtain ⟨sig, hrun, -⟩ := answers_run_iff.mp h
    exact .inr (.inr (.inr (.inr (.inr (.inr ⟨rfl, sig, hrun⟩)))))
  | readOutputLog =>
    cases (answers_iff_of_command fun _ => rfl).mp h
    exact .inl rfl
  | readMem a =>
    have h := (answers_iff_of_command fun _ => rfl).mp h
    exact .inl ((congrArg Prod.fst h).symm.trans (readMem_state a s))

/-- What growing, the two feeding commands and every STEP keep, every command but LOAD keeps; and LOAD too, if what it
makes has it. -/
theorem answers_keeps {P : State → Prop} {capMax : Nat} {c : Command} {s t : State} {r : Response}
    (hload : ∀ image input, c = .load image input → image.length ≤ capMax → P (loadedState image input))
    (hgrow : ∀ n s, n ≤ capMax → P s → P (growTo n s)) (hsuspend : ∀ s, P s → P (s.setSuspend true))
    (hpush : ∀ v s, P s → P (s.setInq (s.inq ++ [v]))) (hstep : ∀ s, P s → P (afterStep s))
    (hs : P s) (h : Answers capMax c s t r) : P t := by
  rcases answers_cases h with rfl | ⟨image, input, hc, hle, rfl⟩ | ⟨n, -, hle, rfl⟩ | ⟨-, rfl⟩ | ⟨v, -, rfl⟩ |
    ⟨-, rfl⟩ | ⟨-, sig, n, hrun⟩
  · exact hs
  · exact hload image input hc hle
  · exact hgrow n s hle hs
  · exact hsuspend s hs
  · exact hpush v s hs
  · exact hstep s hs
  · exact runFor_keeps hstep hs hrun

/-- What growing, the two feeding commands and every STEP keep, every session without a LOAD keeps. -/
theorem session_keeps_of_noLoad {P : State → Prop} {capMax : Nat} {s t : State} {cs : List Command}
    {rs : List Response} (hgrow : ∀ n s, n ≤ capMax → P s → P (growTo n s))
    (hsuspend : ∀ s, P s → P (s.setSuspend true)) (hpush : ∀ v s, P s → P (s.setInq (s.inq ++ [v])))
    (hstep : ∀ s, P s → P (afterStep s)) (hcs : NoLoad cs) (h : Session capMax s cs rs t) (hs : P s) : P t := by
  induction h with
  | done => exact hs
  | more ha _ ih =>
    refine ih (fun image input hmem => hcs image input (List.mem_cons_of_mem _ hmem)) ?_
    refine answers_keeps (fun image input hc => ?_) hgrow hsuspend hpush hstep hs ha
    exact absurd (hc ▸ List.mem_cons_self) (hcs image input)

/-! ### Consistency -/

/-- Settles O2: nothing is listed, and every bound is met by 0. -/
theorem resetIsConsistent : Obligations.ResetIsConsistent := fun capMax =>
  ⟨rfl, rfl, Nat.zero_le capMax, by decide, nofun, by decide, nofun⟩

theorem consistent_loadedState {capMax : Nat} {image : List Word} (h : image.length ≤ capMax) (input : List Word) :
    Consistent capMax (loadedState image input) where
  memCanonical := Memory.wf_image image 0
  memBelowCap := Memory.below_iff.mpr fun c hc => by
    obtain ⟨-, hlt⟩ := Memory.mem_image hc
    rwa [Nat.zero_add] at hlt
  capBound := h
  pcBound := by change (0 : Int) ≤ intMax; decide
  notRunning := nofun
  causeWhenFaulted := ⟨fun h => absurd rfl h, nofun⟩
  outputWhenSuspended := nofun

theorem Consistent.growTo {capMax n : Nat} {s : State} (h : Consistent capMax s) (hn : n ≤ capMax) :
    Consistent capMax (growTo n s) := by
  rw [growTo_eq_setCap h.memBelowCap]
  exact ⟨h.memCanonical, Memory.below_mono h.memBelowCap (Nat.le_max_left _ _), max_le h.capBound hn, h.pcBound,
    h.notRunning, h.causeWhenFaulted, h.outputWhenSuspended⟩

/-- Settles O4: LOAD makes a consistent state, and growing, feeding and every STEP keep it so. -/
theorem commandsKeepConsistent : Obligations.CommandsKeepConsistent := by
  intro capMax c s t r hmax hs h
  refine answers_keeps (fun image input _ hle => consistent_loadedState hle input) (fun n s hn hs => hs.growTo hn)
    (fun s hs => ?_) (fun v s hs => ?_) (fun s hs => ?_) hs h
  · exact { hs with }
  · exact { hs with }
  · exact stepKeepsConsistent capMax s _ hmax hs (step_eq_afterStep s)

/-- Settles O5: power-on is consistent and every command keeps it so; this machine's CAP_MAX is in the range. -/
theorem sessionsStayConsistent : Obligations.SessionsStayConsistent := by
  have sessions (capMax : Nat) (cs : List Command) (rs : List Response) (t : State) (hmax : (capMax : Int) ≤ intMax)
      (h : Session capMax State.reset cs rs t) : Consistent capMax t :=
    session_keeps (fun c s t r hs ha => commandsKeepConsistent capMax c s t r hmax hs ha) h (resetIsConsistent capMax)
  refine ⟨sessions, fun cs rs t => sessions _ cs rs t ?_⟩
  have hlt := Config.capMax.isLt
  simp only [intMax]
  omega

/-! ### Sessions without a LOAD -/

/-- `t` is as the stopped instance `s` in every item that only LOAD changes then, and in the cells `s` has. -/
structure StoppedAs (s t : State) : Prop where
  status : t.status = s.status
  fcause : t.fcause = s.fcause
  pc : t.pc = s.pc
  rb : t.rb = s.rb
  log : t.log = s.log
  cap : s.cap ≤ t.cap
  cells : ∀ a : Int, a < s.cap → memRead a t = memRead a s

theorem StoppedAs.growTo {s t : State} (h : StoppedAs s t) (n : Nat) : StoppedAs s (growTo n t) := by
  have hcells (a : Int) (ha : a < s.cap) : memRead a (Machine.growTo n t) = memRead a s := by
    have hcap := h.cap
    rw [memRead_growTo_of_lt (by omega), h.cells a ha]
  rw [growTo_eq] at hcells ⊢
  exact ⟨h.status, h.fcause, h.pc, h.rb, h.log, h.cap.trans (Nat.le_max_left _ _), hcells⟩

/-- Settles O45: no STEP changes a stopped instance, and no other command but LOAD changes these items of it. -/
theorem onlyLoadRevives : Obligations.OnlyLoadRevives := by
  intro capMax s t cs rs hs hcs h
  have hself : StoppedAs s s := ⟨rfl, rfl, rfl, rfl, rfl, Nat.le_refl _, fun _ _ => rfl⟩
  have hkept : StoppedAs s t := by
    refine session_keeps_of_noLoad (P := StoppedAs s) (fun n u _ hu => hu.growTo n) (fun u hu => { hu with })
      (fun v u hu => { hu with }) (fun u hu => ?_) hcs h hself
    rwa [afterStep_of_terminal ((terminal_iff u.status).mpr (hu.status ▸ hs))]
  exact ⟨hkept.status, hkept.fcause, hkept.pc, hkept.rb, hkept.log, hkept.cells⟩

/-- `t` has grown from `s`: CAP has not shrunk, LOG has only been appended to, SUSPEND has not been cleared. -/
structure GrownFrom (s t : State) : Prop where
  cap : s.cap ≤ t.cap
  log : ∃ l, t.log = s.log ++ l
  suspend : s.suspend = true → t.suspend = true

theorem GrownFrom.growTo {s t : State} (h : GrownFrom s t) (n : Nat) : GrownFrom s (growTo n t) := by
  rw [growTo_eq]
  exact ⟨h.cap.trans (Nat.le_max_left _ _), h.log, h.suspend⟩

theorem GrownFrom.afterStep {s t : State} (h : GrownFrom s t) : GrownFrom s (afterStep t) := by
  obtain ⟨hcap, hsuspend, hlog⟩ := stepKeepsCapacityAndPolicy t _ (step_eq_afterStep t)
  obtain ⟨l, hl⟩ := h.log
  refine ⟨hcap ▸ h.cap, ?_, hsuspend ▸ h.suspend⟩
  rcases hlog with hlog | ⟨v, hlog, -⟩
  · exact ⟨l, hlog.trans hl⟩
  · exact ⟨l ++ [v], by rw [hlog, hl, List.append_assoc]⟩

/-- Settles O58: RESERVE raises CAP, a STEP appends to LOG, ENABLE_SUSPEND sets SUSPEND, and nothing undoes them. -/
theorem growsBetweenLoads : Obligations.GrowsBetweenLoads := by
  intro capMax s t cs rs hcs h
  have hself : GrownFrom s s := ⟨Nat.le_refl _, ⟨[], (List.append_nil _).symm⟩, id⟩
  have hgrown : GrownFrom s t :=
    session_keeps_of_noLoad (P := GrownFrom s) (fun n u _ hu => hu.growTo n)
      (fun u hu => ⟨hu.cap, hu.log, fun _ => rfl⟩) (fun v u hu => { hu with }) (fun u hu => hu.afterStep) hcs h hself
  exact ⟨hgrown.cap, hgrown.log, hgrown.suspend⟩

/-! ### STATUS after each command, and several instances -/

/-- R196: no STEP leaves RUNNING, in whatever STATUS it was given. -/
theorem status_afterStep_ne_running (s : State) : (afterStep s).status ≠ .running := by
  rcases step_next (step_eq_afterStep s) with ⟨ht, h⟩ | ⟨-, f, h⟩ | ⟨-, i, u, e, -, h⟩
  · rw [h]
    intro hrun
    rw [hrun] at ht
    cases ht
  · rw [h]
    nofun
  · rw [h]
    exact event_status_ne_running e

theorem status_of_runReturns {s : State} (h : runReturns s = true) :
    s.status = .suspended ∧ s.suspend = true ∨ s.status = .halted ∨ s.status = .faulted := by
  cases hs : s.status <;> simp_all [runReturns]

/-- Settles O59: LOAD and RESERVE accepted or refused, the others by what they leave; a RUN leaves a state that ends
it. -/
theorem statusTransitions : Obligations.StatusTransitions := by
  intro capMax c s t r h
  cases c with
  | load image input =>
    rintro rfl
    have h := (answers_iff_of_command fun _ => rfl).mp h
    by_cases hle : image.length ≤ capMax
    · cases (load_of_le hle input s).symm.trans h
      rfl
    · cases (load_of_lt (Nat.lt_of_not_le hle) input s).symm.trans h
  | reserve n =>
    have h := (answers_iff_of_command fun _ => rfl).mp h
    by_cases hle : n ≤ capMax
    · cases (reserve_of_le hle s).symm.trans h
      rw [growTo_eq]
    · cases (reserve_of_lt (Nat.lt_of_not_le hle) s).symm.trans h
      rfl
  | enableSuspend =>
    cases (answers_iff_of_command fun _ => rfl).mp h
    rfl
  | pushInput v =>
    cases (answers_iff_of_command fun _ => rfl).mp h
    rfl
  | step =>
    cases (answers_iff_of_command fun _ => rfl).mp h
    refine ⟨fun hs => ?_, status_afterStep_ne_running s⟩
    exact congrArg State.status (afterStep_of_terminal ((terminal_iff s.status).mpr hs))
  | run =>
    obtain ⟨sig, hrun, -⟩ := answers_run_iff.mp h
    refine ⟨fun hs => ?_, ?_⟩
    · rw [(((stoppedStaysStopped s hs).2 t sig).mp hrun).1]
    · rw [← suspend_of_runReturns hrun]
      exact status_of_runReturns (runReturns_result hrun).1
  | readOutputLog =>
    cases (answers_iff_of_command fun _ => rfl).mp h
    rfl
  | readMem a =>
    have h := (answers_iff_of_command fun _ => rfl).mp h
    rw [← readMem_state a s, h]

/-- Settles O60: a list with one place written is the old list at every other place. -/
theorem instancesShareNothing : Obligations.InstancesShareNothing := by
  rintro capMax k c before after r ⟨s, t, hs, ht, rfl⟩
  obtain ⟨hk, -⟩ := List.getElem?_eq_some_iff.mp hs
  exact ⟨List.length_set, fun j hj => List.getElem?_set_ne hj.symm, s, t, hs, List.getElem?_set_self hk, ht⟩

end Sys2Proof.Machine
